-- ==== Sys2Proof/Word.lean ====
section
/-! DEFINITION. The word types of the block and the frame, its unit of command
(00_scope.md rule R7, 30_encoding.md rule R60).

The arithmetic primitives of 00_scope.md rule R8 are the operations of `BitVec` themselves:
add64 is `+`, mul64 is `*`, xor is `^^^`, or is `|||`, shl64 is `<<<`, shr64 is `>>>` (logical),
rotl64 is `BitVec.rotateLeft`. -/

namespace Sys2Proof

/-- A byte: 8 bits (R9). -/
abbrev Byte := BitVec 8

/-- A word, the document's u64: 64 bits, bit 0 least significant (R6 parameter W, R7). -/
abbrev Word := BitVec 64

/-- The result width of NEXT32 (30_encoding.md rule R70). -/
abbrev Half := BitVec 32

/-- A frame: a 32-bit command word and a payload (R60). The frame's boundaries come from the
transport (R69), so a frame is this pair; illegal frames are frames too, hence no bound on the
payload here. -/
structure Frame where
  cw : BitVec 32
  payload : List Byte
deriving DecidableEq, Repr

end Sys2Proof
end

