-- ==== Sys2Proof/Machine/Operands.lean ====
section
/-! DEFINITION. Operand forms: byte order (00_scope.md rule R9, 20_memory.md rules R41 to R43),
the fields of the command word (30_encoding.md rule R61) and the payload lengths (R65). -/

namespace Sys2Proof

/-- The number whose little-endian bytes are given: the first byte is the least significant (R9). -/
def leNat : List Byte → Nat
  | [] => 0
  | b :: bs => b.toNat + 256 * leNat bs

/-- LE64: eight bytes to a word, little-endian (R9). It reads the first eight bytes of `b`. -/
def le64 (b : List Byte) : Word := BitVec.ofNat 64 (leNat (b.take 8))

/-- LE32: four bytes to a 32-bit value, little-endian (R9). It reads the first four bytes of `b`. -/
def le32 (b : List Byte) : BitVec 32 := BitVec.ofNat 32 (leNat (b.take 4))

/-- Bytes64: the eight bytes of a word, least significant first (R9). -/
def bytes64 (w : Word) : List Byte :=
  [w.extractLsb' 0 8, w.extractLsb' 8 8, w.extractLsb' 16 8, w.extractLsb' 24 8,
   w.extractLsb' 32 8, w.extractLsb' 40 8, w.extractLsb' 48 8, w.extractLsb' 56 8]

/-- The four bytes of a 32-bit value, least significant first (R60 for CW, R71 for NEXT32). -/
def bytes32 (v : BitVec 32) : List Byte :=
  [v.extractLsb' 0 8, v.extractLsb' 8 8, v.extractLsb' 16 8, v.extractLsb' 24 8]

/-- lo32: the low 32 bits of a word (R8). -/
def lo32 (w : Word) : Half := w.extractLsb' 0 32

/-- Word `i` of a byte sequence: `LE64(b[8i .. 8i+7])` (R41). -/
def seedWord (b : List Byte) (i : Nat) : Word := le64 (b.drop (8 * i))

/-- Sixteen words, word `i` from the index `i` (the word array of X1024, 10_state.md rule R31). -/
def words16 (f : BitVec 4 → Word) : Vector Word 16 :=
  #v[f 0, f 1, f 2, f 3, f 4, f 5, f 6, f 7, f 8, f 9, f 10, f 11, f 12, f 13, f 14, f 15]

/-- The sixteen words of a 128-byte seed: word `i` at bytes `8i` to `8i + 7` (R41). -/
def seedWords16 (b : List Byte) : Vector Word 16 := words16 fun i => seedWord b i.toNat

/-- The bytes of a seed of sixteen words, in payload order (R72). -/
def seedBytes16 (ws : Vector Word 16) : List Byte := ws.toList.flatMap bytes64

/-- OP, `CW[3:0]` (R61). -/
def Frame.op (f : Frame) : BitVec 4 := f.cw.extractLsb' 0 4

/-- ENG, `CW[5:4]` (R61). -/
def Frame.eng (f : Frame) : BitVec 2 := f.cw.extractLsb' 4 2

/-- RSV, `CW[7:6]` (R61). -/
def Frame.rsv (f : Frame) : BitVec 2 := f.cw.extractLsb' 6 2

/-- LEN, `CW[31:8]` (R61). -/
def Frame.len (f : Frame) : BitVec 24 := f.cw.extractLsb' 8 24

/-- PAYLEN: the payload length a legal frame must have (R65). For the reserved engine 3, which R65
gives no column, SEEDB is given 0; no such frame is legal whatever its length (log entry 12). -/
def payLen (op : BitVec 4) (eng : BitVec 2) : Nat :=
  if op = 1 then
    (if eng = 0 then 8 else if eng = 1 then 16 else if eng = 2 then 128 else 0)
  else if op = 2 then 8
  else 0

end Sys2Proof
end

