-- ==== Sys2Proof/Config.lean ====
section
/-! DEFINITION. The open parameters of the block (00_scope.md rule R6) and the free answers of
the entropy source (60_exceptions.md rule R212).

FREE VALUES: `Config.unseededIndex` and `Config.entropyAnswer` have no body, so nothing in Lean can
evaluate them or prove a value of them. -/

namespace Sys2Proof

/-- One answer of the entropy source: a failure, or bytes. A request asks for 8, 16 or 128 bytes
and takes the first so many of the 128 held here (R212; log entry 4). -/
inductive EntAnswer where
  | fail
  | ok (bytes : Vector Byte 128)
deriving DecidableEq, Repr, Inhabited

/-- DESIGN CHOICE (safe, log entry 4): the answer of the entropy source to the k-th request that
the answers lined up in the state do not cover. A FREE VALUE (R212: "Nothing constrains the
bytes"). -/
opaque Config.entropyAnswer : Nat → EntAnswer

/-- DESIGN CHOICE (safe, log entry 6): names one of the 2^128 - 1 pairs of words that are not both
zero. A FREE VALUE (R125: "No claim may rest on a particular value of it"). -/
opaque Config.unseededIndex : Fin (340282366920938463463374607431768211454 + 1)

/-- `UNSEEDED_X128` as one 128-bit number `u0 + u1 * 2^64`: any value but zero (R6, R125). -/
def Config.unseededNumber : BitVec 128 := BitVec.ofNat 128 (Config.unseededIndex.val + 1)

/-- `UNSEEDED_X128 = (u0, u1)`: an open parameter, not both zero, no default (R6, R125). -/
def Config.unseededX128 : Word × Word :=
  (Config.unseededNumber.extractLsb' 0 64, Config.unseededNumber.extractLsb' 64 64)

/-- The jump strides `J_SM64`, `J_X128` and `J_X1024`, in draws: open parameters of an instance, each
a natural number (R6, R171). An instance's strides stand in `State.strides` (log entry 7). -/
structure Strides where
  sm64 : Nat
  x128 : Nat
  x1024 : Nat
deriving DecidableEq, Repr

/-- The default strides (R6, R171): 2^32, 2^64 and 2^512 draws. -/
def Config.defaultStrides : Strides where
  sm64 := 2 ^ 32
  x128 := 2 ^ 64
  x1024 := 2 ^ 512

end Sys2Proof
end

