-- ==== Sys2Proof/Machine/State.lean ====
section
/-! DEFINITION. The state of the block (10_state.md rule R20), the responses (30_encoding.md rule
R70), and the state after reset (10_state.md rule R30).

`sm`, `xo` and `xs` are the spec's state. The other fields are the model's own: what stands outside
the block (the host's frames, the responses sent, the entropy source) and the parameters of the
instance, as plain data. -/

namespace Sys2Proof.Machine

/-- The word of engine SM64, `sm.x` (R20, R21). -/
structure Sm where
  x : Word
deriving DecidableEq, Repr

/-- The pair of engine X128, `xo.s[0]` and `xo.s[1]` (R20, R22). -/
structure Xo where
  s0 : Word
  s1 : Word
deriving DecidableEq, Repr

/-- The sixteen words and the pointer of engine X1024, `xs.s[0..15]` and `xs.p` (R20, R23). The
pointer has four bits, so it is always in 0 to 15 and advances modulo 16. -/
structure Xs where
  s : Vector Word 16
  p : BitVec 4
deriving DecidableEq, Repr

/-- The status of a response (R70, 60_exceptions.md rule R200). -/
inductive Status where
  | ok
  | invalidSeed
  | entropySourceUnavailable
  | illegalCommand
  | notSeeded
deriving DecidableEq, Repr

/-- The `word` part of a response: 64 bits for NEXT64, 32 bits for NEXT32 (R70). -/
inductive Drawn where
  | word64 (v : Word)
  | word32 (v : Half)
deriving DecidableEq, Repr

/-- A response: its three parts (R70). -/
structure Response where
  status : Status
  word : Option Drawn
  bytes : Option (List Byte)
deriving DecidableEq, Repr

/-- What the host can do to the block: send a frame, or reset it between frames
(70_reset_and_hazards.md rules R230, R236). -/
inductive HostInput where
  | frame (f : Frame)
  | reset
deriving DecidableEq, Repr

/-- The SEEDE frames that can draw an all-zero seed and draw again (60_exceptions.md rule R213). -/
inductive Redraw where
  | x128
  | x1024
deriving DecidableEq, Repr

/-- The state. The valid bit of an engine (R24) is 1 exactly when its field here holds words: R30,
"A model should give an unseeded engine no words at all (an option type), not zeros" (log entry 3). -/
structure State where
  /-- engine SM64: `sm.x`, present when `sm.valid = 1` -/
  sm : Option Sm
  /-- engine X128: `xo.s[0]`, `xo.s[1]`, present when `xo.valid = 1` -/
  xo : Option Xo
  /-- engine X1024: `xs.s[0..15]`, `xs.p`, present when `xs.valid = 1` -/
  xs : Option Xs
  /-- the model's own: what the host has sent and the block has not taken yet, oldest first (R69,
  R235; log entry 1) -/
  inbox : List HostInput
  /-- the model's own: the responses sent, oldest first (R235; log entry 2) -/
  outbox : List Response
  /-- the model's own: the SEEDE frame that is still executing because its draws so far were all
  zero (R213; log entry 5) -/
  redraw : Option Redraw
  /-- the model's own: the answers the entropy source has lined up, oldest first (R212; log entry 4) -/
  entropy : List EntAnswer
  /-- the model's own: how many answers were taken from the free source (R212; log entry 4) -/
  entropyIndex : Nat
  /-- the model's own: the jump strides of this instance (00_scope.md rule R6: "an argument of the
  model"), which no step changes; the spec's state does not hold them (10_state.md rule R26; log
  entry 7) -/
  strides : Strides
deriving DecidableEq, Repr

/-- Why the machine stops with a fault: there is no reason. Every error of the block is the status
of a response, after which it goes on (60_exceptions.md rules R208, R209), so an error is a next
state and nothing raises a fault (log entry 9). -/
inductive Fault
deriving DecidableEq, Repr

/-- Why a command has no meaning in the model. -/
inductive Refusal where
  /-- raised by an arm of `exec` whose command has no meaning yet (safe); no arm is left that
  raises it -/
  | notModelled (mnemonic : String)
deriving DecidableEq, Repr

/-- The block right after reset: the three valid bits are 0 (R30), so no engine holds words; nothing
sent, nothing answered, no answer of the entropy source lined up (log entries 1, 2, 4, 5), the jump
strides at their defaults (log entry 7). -/
def State.reset : State where
  sm := none
  xo := none
  xs := none
  inbox := []
  outbox := []
  redraw := none
  entropy := []
  entropyIndex := 0
  strides := Config.defaultStrides

end Sys2Proof.Machine
end

