-- ==== Sys2Proof/Machine/Engines.lean ====
section
/-! DEFINITION. The step functions of the three engines (41_splitmix64.md rules R100 to R102,
42_xoroshiro128plus.md rules R120, R121, 43_xorshift1024star.md rules R140, R141), each as one draw
(44_contract_fill_jump.md rule R160), and the seed expansion (41_splitmix64.md rule R109). -/

namespace Sys2Proof.Machine

/-- `GAMMA` (R100). -/
def gamma : Word := 0x9E3779B97F4A7C15#64

/-- `MIX1` (R100). -/
def mix1 : Word := 0xBF58476D1CE4E5B9#64

/-- `MIX2` (R100). -/
def mix2 : Word := 0x94D049BB133111EB#64

/-- `STAR`, the output multiplier of XorShift1024* (R140). -/
def star : Word := 1181783497276652981#64

/-- `z ^ shr64(z, k)`, the three xor-shifts of the mix (R101). -/
def xorShr (k : Nat) (z : Word) : Word := z ^^^ (z >>> k)

/-- `Mix64` (R101). -/
def mix64 (z0 : Word) : Word :=
  let z1 := xorShr 30 z0
  let z2 := z1 * mix1
  let z3 := xorShr 27 z2
  let z4 := z3 * mix2
  xorShr 31 z4

/-- `Draw(SM64)` by `SmStep`: the addition first, the output is the mix of the new word (R102, R160). -/
def Sm.draw (e : Sm) : Sm × Word :=
  let x' := e.x + gamma
  (⟨x'⟩, mix64 x')

/-- `Expand(v, n)`: the first `n` outputs of a private SplitMix64 whose word is `v` (R109). -/
def expand (v : Word) : Nat → List Word
  | 0 => []
  | n + 1 => let d := Sm.draw ⟨v⟩; d.2 :: expand d.1.x n

/-- `Draw(X128)` by `XoStep`: the output is the sum of the old pair (R121, R160). -/
def Xo.draw (e : Xo) : Xo × Word :=
  let t := e.s1 ^^^ e.s0
  let n0 := e.s0.rotateLeft 55 ^^^ t ^^^ (t <<< 14)
  let n1 := t.rotateLeft 36
  (⟨n0, n1⟩, e.s0 + e.s1)

/-- The word `state[i]` of X1024. -/
def Xs.word (e : Xs) (i : BitVec 4) : Word := e.s[i.toNat]

/-- `Draw(X1024)` by `XsStep`: only the word at the new pointer changes, and the output is that new
word times `STAR` (R141, R160). -/
def Xs.draw (e : Xs) : Xs × Word :=
  let a := e.word e.p
  let p1 := e.p + 1
  let b0 := e.word p1
  let b := b0 ^^^ (b0 <<< 31)
  let n := b ^^^ a ^^^ (b >>> 11) ^^^ (a >>> 30)
  (⟨e.s.set p1.toNat n, p1⟩, n * star)

/-- `n` draws, one after the other: `Step_e` applied `n` times, the outputs dropped (R160, R170). -/
def steps {E : Type} (draw : E → E × Word) : Nat → E → E
  | 0, e => e
  | n + 1, e => steps draw n (draw e).1

/-- Both words zero: the forbidden state of X128 (10_state.md rule R22). -/
def Xo.isZero (e : Xo) : Bool := e.s0 == 0 && e.s1 == 0

/-- All sixteen words zero: the forbidden state of X1024 (10_state.md rule R23). -/
def Xs.isZero (e : Xs) : Bool := e.s.toList.all fun w => w == 0

end Sys2Proof.Machine
end

