-- ==== Sys2Proof/Machine/Jump.lean ====
section
/-! DEFINITION. The jump functions (44_contract_fill_jump.md rules R170 to R176). `Jump_e` is `Step_e`
applied `J_e` times (R170); it is computed here by the closed form of R172 for SM64 and by the
polynomial method of R175 and R176 for X128 and X1024, for every stride.

A polynomial over GF(2) is a number: bit `k` is the coefficient of `x^k` (R175). -/

namespace Sys2Proof.Machine

/-- The 64-bit words of a polynomial, low word first, as one number (R175, R176). -/
def polyOfWords : List Nat → Nat
  | [] => 0
  | w :: ws => w + 2 ^ 64 * polyOfWords ws

/-- `P(x)` of X128: `x^128 + PL(x)` (R175). -/
def charPolyX128 : Nat := 2 ^ 128 + 0x00653CED7F29F88A5FD66762F0E1C001

/-- `P(x)` of X1024: `x^1024 + PL(x)`, the words of `PL` low word first (R176). -/
def charPolyX1024 : Nat := 2 ^ 1024 + polyOfWords
  [0x1000000000000001, 0x2200AA001400F000, 0x0111E1C02BC18180, 0x030D535201556130,
   0x4A32D044029B08F7, 0x34B3216457D7B028, 0xE860F083D70158C6, 0xDF6A7CADBA32BCA9,
   0xBABAB341E2554B59, 0xCD40A7E2537771EA, 0x0040F0E46E848800, 0xA1422CB7814F5C68,
   0x53116C08605C805F, 0x0440024003007B28, 0x787878786D381540, 0x0000000000007879]

/-- `JP` of R175: `x^(2^64) mod P` for X128. -/
def jumpPolyX128Default : Nat := polyOfWords [0xBEAC0467EBA5FACB, 0xD86B048B86AA9922]

/-- `JP` of R176: `x^(2^512) mod P` for X1024. -/
def jumpPolyX1024Default : Nat := polyOfWords
  [0x84242F96ECA9C41D, 0xA3C65B8776F96855, 0x5B34A39F070B5837, 0x4489AFFCE4F31A1E,
   0x2FFEEB0A48316F40, 0xDC2D9891FE68C022, 0x3659132BB12FEA70, 0xAAC17D8EFA43CAB8,
   0xC4CB815590989B13, 0x5EE975283D71C93B, 0x691548C86C1BD540, 0x7910C41D10A1E6A5,
   0x0B5FC64563B3E2A8, 0x047F7684E9FC949D, 0xB99181F2D8F685CA, 0x284600E3F30E38C3]

/-- `x * r mod P` for a polynomial `r` of degree below `d`, where `P` has degree `d` (R175: "reduce"). -/
def polyTimesX (d P r : Nat) : Nat :=
  if r.testBit (d - 1) then (2 * r) ^^^ P else 2 * r

/-- `acc + a * b mod P`, over the low `n` bits of `a`, for `b` and `acc` of degree below `d`. -/
def polyMulAdd (d P : Nat) : Nat → Nat → Nat → Nat → Nat
  | 0, _, _, acc => acc
  | n + 1, a, b, acc =>
    polyMulAdd d P n (a / 2) (polyTimesX d P b) (if a % 2 = 1 then acc ^^^ b else acc)

/-- `a * b mod P` for polynomials of degree below `d`. -/
def polyMul (d P a b : Nat) : Nat := polyMulAdd d P d a b 0

/-- `x^J mod P` by square-and-reduce (R175: "For another stride"); the first argument bounds the
number of bits of `J`. -/
def polyPow (d P : Nat) : Nat → Nat → Nat
  | 0, _ => 1
  | n + 1, J =>
    let h := polyPow d P n (J / 2)
    let q := polyMul d P h h
    if J % 2 = 1 then polyTimesX d P q else q

/-- `R(x) = x^J mod P(x)` for X128: the words of R175 at the default stride, square-and-reduce at
another. -/
def jumpPolyX128 (J : Nat) : Nat :=
  if J = 2 ^ 64 then jumpPolyX128Default else polyPow 128 charPolyX128 (J.log2 + 1) J

/-- `R(x) = x^J mod P(x)` for X1024: the words of R176 at the default stride, square-and-reduce at
another. -/
def jumpPolyX1024 (J : Nat) : Nat :=
  if J = 2 ^ 512 then jumpPolyX1024Default else polyPow 1024 charPolyX1024 (J.log2 + 1) J

/-- `Jump_SM64`: add `J * GAMMA`, wrapping (R172). -/
def Sm.jump (J : Nat) (e : Sm) : Sm := ⟨e.x + BitVec.ofNat 64 J * gamma⟩

/-- The sum of two pairs over GF(2). -/
def Xo.xor (a b : Xo) : Xo := ⟨a.s0 ^^^ b.s0, a.s1 ^^^ b.s1⟩

/-- The loop of R175: over the low `n` bits of `r`, add the working copy `c` where the bit is 1, and
step the copy. -/
def Xo.applyPoly : Nat → Nat → Xo → Xo → Xo
  | 0, _, _, acc => acc
  | n + 1, r, c, acc =>
    Xo.applyPoly n (r / 2) c.draw.1 (if r % 2 = 1 then acc.xor c else acc)

/-- `Jump_X128` by the polynomial method (R175), for the stride `J`. -/
def Xo.jump (J : Nat) (e : Xo) : Xo := Xo.applyPoly 128 (jumpPolyX128 J) e ⟨0, 0⟩

/-- The words taken relative to the pointer: `r[i] = xs.s[(xs.p + i) mod 16]` (R176). -/
def Xs.relative (e : Xs) : Vector Word 16 := words16 fun i => e.word (e.p + i)

/-- The sum of two word arrays over GF(2). -/
def xorWords (a b : Vector Word 16) : Vector Word 16 :=
  words16 fun i => a[i.toNat] ^^^ b[i.toNat]

/-- The loop of R176: over the low `n` bits of `r`, add the working copy's words relative to its
pointer where the bit is 1, and step the copy. -/
def Xs.applyPoly : Nat → Nat → Xs → Vector Word 16 → Vector Word 16
  | 0, _, _, t => t
  | n + 1, r, c, t =>
    Xs.applyPoly n (r / 2) c.draw.1 (if r % 2 = 1 then xorWords t c.relative else t)

/-- Sixteen relative words stored from the pointer `p` on: `s'[(p + j) mod 16] = t[j]` (R176). -/
def Xs.ofRelative (t : Vector Word 16) (p : BitVec 4) : Xs :=
  ⟨words16 fun i => t[(i - p).toNat], p⟩

/-- `Jump_X1024` by the polynomial method (R176), for the stride `J`: the pointer becomes
`(p + J) mod 16`. -/
def Xs.jump (J : Nat) (e : Xs) : Xs :=
  Xs.ofRelative (Xs.applyPoly 1024 (jumpPolyX1024 J) e (words16 fun _ => 0))
    (e.p + BitVec.ofNat 4 J)

end Sys2Proof.Machine
end

