-- ==== Sys2Proof/Syntax.lean ====
section
/-! DEFINITION. The commands of the block: one constructor per row of spec/opcode_table.json, in
the table's order (30_encoding.md rule R75). Operands are those of the assembler syntax (R72):
seed words, the integer of SEEDI, the byte count of FILL. -/

namespace Sys2Proof

/-- The 22 commands. Every operand has exactly the type R72 gives it, so there is no ill-formed
command: `w`, `w0`, `w1`, `ws`, `v` are 64-bit words and `len` is the 24-bit byte count (R64). -/
inductive Instr where
  /-- SEEDB.SM64 w (R103) -/
  | seedbSm64 (w : Word)
  /-- SEEDI.SM64 v (R104) -/
  | seediSm64 (v : Word)
  /-- SEEDE.SM64 (R105) -/
  | seedeSm64
  /-- NEXT64.SM64 (R106) -/
  | next64Sm64
  /-- NEXT32.SM64 (R107) -/
  | next32Sm64
  /-- FILL.SM64 n (R163) -/
  | fillSm64 (len : BitVec 24)
  /-- JUMP.SM64 (R172) -/
  | jumpSm64
  /-- SEEDB.X128 w0, w1 (R122) -/
  | seedbX128 (w0 w1 : Word)
  /-- SEEDI.X128 v (R123) -/
  | seediX128 (v : Word)
  /-- SEEDE.X128 (R124) -/
  | seedeX128
  /-- SEEDD.X128 (R125) -/
  | seeddX128
  /-- NEXT64.X128 (R126) -/
  | next64X128
  /-- NEXT32.X128 (R127) -/
  | next32X128
  /-- FILL.X128 n (R164) -/
  | fillX128 (len : BitVec 24)
  /-- JUMP.X128 (R173) -/
  | jumpX128
  /-- SEEDB.X1024 w0, ..., w15 (R142) -/
  | seedbX1024 (ws : Vector Word 16)
  /-- SEEDI.X1024 v (R143) -/
  | seediX1024 (v : Word)
  /-- SEEDE.X1024 (R144) -/
  | seedeX1024
  /-- NEXT64.X1024 (R145) -/
  | next64X1024
  /-- NEXT32.X1024 (R146) -/
  | next32X1024
  /-- FILL.X1024 n (R165) -/
  | fillX1024 (len : BitVec 24)
  /-- JUMP.X1024 (R174) -/
  | jumpX1024
deriving DecidableEq, Repr

end Sys2Proof
end

