-- ==== Sys2Proof/WellFormed.lean ====
section
/-! DEFINITION. When a frame is well formed: the six tests of 30_encoding.md rule R66, one by one.
A command of `Instr` is well formed by its type (Syntax.lean), so what can be ill formed is a frame. -/

namespace Sys2Proof

/-- Test 1: RSV is `00`. -/
def Frame.reservedZero (f : Frame) : Bool := f.rsv == 0

/-- Test 2: ENG names an engine. -/
def Frame.engineKnown (f : Frame) : Bool := f.eng != 3

/-- Test 3: OP is one of 1 to 8. -/
def Frame.operationKnown (f : Frame) : Bool := f.op != 0 && decide (f.op < 9)

/-- Test 4: LEN is zero but for FILL. -/
def Frame.lenAllowed (f : Frame) : Bool := f.op == 7 || f.len == 0

/-- Test 5: SEEDD is for X128 only. -/
def Frame.seeddAllowed (f : Frame) : Bool := f.op != 4 || f.eng == 1

/-- Test 6: the payload has the length the command takes. -/
def Frame.payloadFits (f : Frame) : Bool := f.payload.length == payLen f.op f.eng

/-- A frame that passes all six tests of R66. -/
def Frame.wellFormed (f : Frame) : Bool :=
  f.reservedZero && f.engineKnown && f.operationKnown && f.lenAllowed && f.seeddAllowed &&
    f.payloadFits

end Sys2Proof
end

