-- ==== Sys2Proof/Decode.lean ====
section
/-! DEFINITION. The decoder (30_encoding.md rule R66), total on every frame and rejecting by name,
and the encoder (R72, R75); the byte-string form of a frame (R60, R68). -/

namespace Sys2Proof

/-- Why a frame is Illegal: the six tests of R66, by name. All have the one response
IllegalCommand (60_exceptions.md rule R203). -/
inductive Illegal where
  /-- test 1, R67 (a): `RSV != 0` -/
  | reservedBits
  /-- test 2, R67 (b): `ENG = 3` -/
  | reservedEngine
  /-- test 3, R67 (c), (d): `OP = 0` or `OP >= 9` -/
  | reservedOperation
  /-- test 4, R67 (e): `LEN != 0` with an operation other than FILL -/
  | lengthNotZero
  /-- test 5, R67 (f): SEEDD for an engine other than X128 -/
  | seeddEngine
  /-- test 6, R67 (g): a payload of the wrong length -/
  | payloadLength
deriving DecidableEq, Repr

/-- What a frame decodes to: a command, or Illegal (R66). -/
inductive Decoded where
  | command (i : Instr)
  | illegal (why : Illegal)
deriving DecidableEq, Repr

/-- The row of the opcode map (R75) that the OP and ENG fields name, with its operands; `none` where
no row has them, which the tests before it in `decode` exclude. -/
def rowOf (f : Frame) : Option Instr :=
  match f.op.toNat, f.eng.toNat with
  | 1, 0 => some (.seedbSm64 (le64 f.payload))
  | 2, 0 => some (.seediSm64 (le64 f.payload))
  | 3, 0 => some .seedeSm64
  | 5, 0 => some .next64Sm64
  | 6, 0 => some .next32Sm64
  | 7, 0 => some (.fillSm64 f.len)
  | 8, 0 => some .jumpSm64
  | 1, 1 => some (.seedbX128 (seedWord f.payload 0) (seedWord f.payload 1))
  | 2, 1 => some (.seediX128 (le64 f.payload))
  | 3, 1 => some .seedeX128
  | 4, 1 => some .seeddX128
  | 5, 1 => some .next64X128
  | 6, 1 => some .next32X128
  | 7, 1 => some (.fillX128 f.len)
  | 8, 1 => some .jumpX128
  | 1, 2 => some (.seedbX1024 (seedWords16 f.payload))
  | 2, 2 => some (.seediX1024 (le64 f.payload))
  | 3, 2 => some .seedeX1024
  | 5, 2 => some .next64X1024
  | 6, 2 => some .next32X1024
  | 7, 2 => some (.fillX1024 f.len)
  | 8, 2 => some .jumpX1024
  | _, _ => none

/-- The decoder of R66: the six tests in the rule's order, the first that fires decides. -/
def decode (f : Frame) : Decoded :=
  if f.reservedZero = false then .illegal .reservedBits
  else if f.engineKnown = false then .illegal .reservedEngine
  else if f.operationKnown = false then .illegal .reservedOperation
  else if f.lenAllowed = false then .illegal .lengthNotZero
  else if f.seeddAllowed = false then .illegal .seeddEngine
  else if f.payloadFits = false then .illegal .payloadLength
  else
    match rowOf f with
    | some i => .command i
    | none => .illegal .reservedOperation

/-- The command words and payloads of R72 (their fields: R61). -/
def encode : Instr → Frame
  | .seedbSm64 w => ⟨0x00000001#32, bytes64 w⟩
  | .seediSm64 v => ⟨0x00000002#32, bytes64 v⟩
  | .seedeSm64 => ⟨0x00000003#32, []⟩
  | .next64Sm64 => ⟨0x00000005#32, []⟩
  | .next32Sm64 => ⟨0x00000006#32, []⟩
  | .fillSm64 len => ⟨len ++ 0x07#8, []⟩
  | .jumpSm64 => ⟨0x00000008#32, []⟩
  | .seedbX128 w0 w1 => ⟨0x00000011#32, bytes64 w0 ++ bytes64 w1⟩
  | .seediX128 v => ⟨0x00000012#32, bytes64 v⟩
  | .seedeX128 => ⟨0x00000013#32, []⟩
  | .seeddX128 => ⟨0x00000014#32, []⟩
  | .next64X128 => ⟨0x00000015#32, []⟩
  | .next32X128 => ⟨0x00000016#32, []⟩
  | .fillX128 len => ⟨len ++ 0x17#8, []⟩
  | .jumpX128 => ⟨0x00000018#32, []⟩
  | .seedbX1024 ws => ⟨0x00000021#32, seedBytes16 ws⟩
  | .seediX1024 v => ⟨0x00000022#32, bytes64 v⟩
  | .seedeX1024 => ⟨0x00000023#32, []⟩
  | .next64X1024 => ⟨0x00000025#32, []⟩
  | .next32X1024 => ⟨0x00000026#32, []⟩
  | .fillX1024 len => ⟨len ++ 0x27#8, []⟩
  | .jumpX1024 => ⟨0x00000028#32, []⟩

/-- A frame as a byte string: CW little-endian, then the payload (R60). -/
def Frame.toBytes (f : Frame) : List Byte := bytes32 f.cw ++ f.payload

/-- The first frame of a byte string, and the rest, cut by reading `CW[5:0]` as R68 says a host that
serialises frames can; `none` when the string is too short. Of use for legal frames only: after an
Illegal frame the length is not defined (R68, R69; log entry 12). -/
def Frame.cut (bs : List Byte) : Option (Frame × List Byte) :=
  let f : Frame := ⟨le32 bs, (bs.drop 4).take (payLen (Frame.op ⟨le32 bs, []⟩) (Frame.eng ⟨le32 bs, []⟩))⟩
  if bs.length < 4 + payLen f.op f.eng then none
  else some (f, bs.drop (4 + payLen f.op f.eng))

/-- The frame whose bits are `w`, numbered as spec/opcode_table.json numbers them: CW is bits 31 to
0, payload byte `k` is bits `8k + 39` to `8k + 32`, every bit from `nbits` up is 0; the payload has
the length CW calls for (R65; log entry 13). -/
def tableFrame (nbits w : Nat) : Frame :=
  let v := w % 2 ^ nbits
  let cw := BitVec.ofNat 32 v
  ⟨cw, (List.range (payLen (Frame.op ⟨cw, []⟩) (Frame.eng ⟨cw, []⟩))).map
    fun k => BitVec.ofNat 8 (v >>> (32 + 8 * k))⟩

/-- What the decoder reads from the frame whose bits are `w` (log entry 13). -/
def decodeTableWord (nbits w : Nat) : Option Instr :=
  match decode (tableFrame nbits w) with
  | .command i => some i
  | .illegal _ => none

end Sys2Proof
end

