-- ==== Sys2Proof/Machine/Flags.lean ====
section
/-! DEFINITION. The flags of the block: the three valid bits (10_state.md rule R24), and the status
codes (30_encoding.md rule R70). No command sets a flag as a side effect of arithmetic (R24). -/

namespace Sys2Proof.Machine

/-- `sm.valid` (R24). -/
def State.smValid (s : State) : Bool := s.sm.isSome

/-- `xo.valid` (R24). -/
def State.xoValid (s : State) : Bool := s.xo.isSome

/-- `xs.valid` (R24). -/
def State.xsValid (s : State) : Bool := s.xs.isSome

/-- The status code; `0x05` to `0xFF` are never produced (R70). -/
def Status.code : Status → Byte
  | .ok => 0x00
  | .invalidSeed => 0x01
  | .entropySourceUnavailable => 0x02
  | .illegalCommand => 0x03
  | .notSeeded => 0x04

end Sys2Proof.Machine
end

