-- ==== Sys2Proof/Machine/Ops.lean ====
section
/-! DEFINITION. The named operations over the state: answering a frame, raising an error (the block's
"trap entry", 60_exceptions.md rule R208), writing an engine, drawing entropy, seeding, taking the
next frame. -/

namespace Sys2Proof.Machine

/-- Status OK, no word, no bytes (30_encoding.md rule R70). -/
def Response.done : Response := ⟨.ok, none, none⟩

/-- Status OK and a 64-bit word (R70). -/
def Response.word64 (v : Word) : Response := ⟨.ok, some (.word64 v), none⟩

/-- Status OK and a 32-bit word (R70). -/
def Response.word32 (v : Half) : Response := ⟨.ok, some (.word32 v), none⟩

/-- Status OK and bytes (R70). -/
def Response.filled (bs : List Byte) : Response := ⟨.ok, none, some bs⟩

/-- An error's status, no word and no bytes (R70). -/
def Response.failed (e : Status) : Response := ⟨e, none, none⟩

/-- The byte string of a word of a response (R71). -/
def Drawn.toBytes : Drawn → List Byte
  | .word64 v => bytes64 v
  | .word32 v => bytes32 v

/-- A response as a byte string: the status byte, then the data (R71). -/
def Response.toBytes (r : Response) : List Byte :=
  r.status.code :: ((r.word.map Drawn.toBytes).getD [] ++ r.bytes.getD [])

/-- End the frame with this response (00_scope.md rule R10, `respond`). -/
def State.respond (r : Response) (s : State) : State := { s with outbox := s.outbox ++ [r] }

/-- End the frame with an error: its status is the response, and that is the whole effect
(60_exceptions.md rules R206, R208; 00_scope.md rule R10, `raise`). The one operation by which every
error is taken. There is no return from it: the block is ready for the next frame (R209). -/
def State.raise (e : Status) (s : State) : State := s.respond (.failed e)

/-- Write the state of SM64; its valid bit is then 1 (10_state.md rule R24). -/
def State.setSm (s : State) (e : Sm) : State := { s with sm := some e }

/-- Write the state of X128; its valid bit is then 1 (R24). -/
def State.setXo (s : State) (e : Xo) : State := { s with xo := some e }

/-- Write the state of X1024; its valid bit is then 1 (R24). -/
def State.setXs (s : State) (e : Xs) : State := { s with xs := some e }

/-- Say which SEEDE frame is still executing, if one is (60_exceptions.md rule R213). -/
def State.setRedraw (s : State) (r : Option Redraw) : State := { s with redraw := r }

/-- The reset event: the three valid bits become 0, and nothing else that can be seen changes; the
entropy source is not touched (70_reset_and_hazards.md rule R230, 10_state.md rule R30). -/
def State.resetEvent (s : State) : State := { s with sm := none, xo := none, xs := none }

/-- The bytes an answer gives to a request for `n` bytes, `none` for Fail (60_exceptions.md rule R212). -/
def EntAnswer.take (n : Nat) : EntAnswer → Option (List Byte)
  | .fail => none
  | .ok b => some (b.toList.take n)

/-- `EntDraw(n)`: one request to the entropy source for `n` bytes; the answer is used up (R212). -/
def State.entDraw (n : Nat) (s : State) : Option (List Byte) × State :=
  match s.entropy with
  | a :: rest => (EntAnswer.take n a, { s with entropy := rest })
  | [] => (EntAnswer.take n (Config.entropyAnswer s.entropyIndex),
      { s with entropyIndex := s.entropyIndex + 1 })

/-- Seed SM64 with a word: every word is legal (41_splitmix64.md rules R103, R104). -/
def State.seedSm (x : Word) (s : State) : State := (s.setSm ⟨x⟩).respond .done

/-- Seed X128 with a pair: InvalidSeed if both words are zero (42_xoroshiro128plus.md rules R122, R123). -/
def State.seedXo (e : Xo) (s : State) : State :=
  if e.isZero then s.raise .invalidSeed else (s.setXo e).respond .done

/-- Seed X1024 with sixteen words, the pointer 0: InvalidSeed if all are zero (43_xorshift1024star.md
rules R142, R143). -/
def State.seedXs (ws : Vector Word 16) (s : State) : State :=
  if (Xs.mk ws 0).isZero then s.raise .invalidSeed else (s.setXs ⟨ws, 0⟩).respond .done

/-- SEEDE.X128 after its draw `a` (R124): fail, reject and draw again, or seed. -/
def State.seedXoFrom (a : Option (List Byte)) (s : State) : State :=
  match a with
  | none => (s.setRedraw none).raise .entropySourceUnavailable
  | some b =>
    let e : Xo := ⟨seedWord b 0, seedWord b 1⟩
    if e.isZero then s.setRedraw (some .x128)
    else ((s.setRedraw none).setXo e).respond .done

/-- SEEDE.X1024 after its draw `a` (R144): fail, reject and draw again, or seed. -/
def State.seedXsFrom (a : Option (List Byte)) (s : State) : State :=
  match a with
  | none => (s.setRedraw none).raise .entropySourceUnavailable
  | some b =>
    let e : Xs := ⟨seedWords16 b, 0⟩
    if e.isZero then s.setRedraw (some .x1024)
    else ((s.setRedraw none).setXs e).respond .done

/-- What the block finds to do next. -/
inductive Work where
  /-- nothing: it is idle and holds its state (60_exceptions.md rule R215) -/
  | idle
  /-- a reset event (70_reset_and_hazards.md rule R230) -/
  | reset
  /-- a frame that does not decode (60_exceptions.md rule R203) -/
  | illegal
  /-- a command to execute -/
  | run (i : Instr)
deriving DecidableEq, Repr

/-- The work a frame gives (30_encoding.md rule R66). -/
def workOf (f : Frame) : Work :=
  match decode f with
  | .command i => .run i
  | .illegal _ => .illegal

/-- Take the next thing to do, in arrival order (20_memory.md rule R49): a SEEDE frame that is still
executing goes on before anything else is taken (60_exceptions.md rule R213). -/
def State.fetch (s : State) : Work × State :=
  match s.redraw with
  | some .x128 => (.run .seedeX128, s)
  | some .x1024 => (.run .seedeX1024, s)
  | none =>
    match s.inbox with
    | [] => (.idle, s)
    | .reset :: rest => (.reset, { s with inbox := rest })
    | .frame f :: rest => (workOf f, { s with inbox := rest })

end Sys2Proof.Machine
end

