-- ==== Sys2Proof/Machine/Contract.lean ====
section
/-! DEFINITION. The generic contract (44_contract_fill_jump.md rules R160 to R162, R170): the four
output and jump operations, once for all engines, over the engine's state `e` (absent when its valid
bit is 0), the function `put` that writes it, and its draw. -/

namespace Sys2Proof.Machine

/-- NEXT64: one draw, the whole word; NotSeeded when the valid bit is 0 (R160, R204). -/
def outNext64 {E : Type} (draw : E → E × Word) (e : Option E) (put : E → State) (s : State) : State :=
  match e with
  | none => s.raise .notSeeded
  | some c => (put (draw c).1).respond (.word64 (draw c).2)

/-- NEXT32: one draw, the low 32 bits, the rest dropped; NotSeeded when the valid bit is 0 (R161, R204). -/
def outNext32 {E : Type} (draw : E → E × Word) (e : Option E) (put : E → State) (s : State) : State :=
  match e with
  | none => s.raise .notSeeded
  | some c => (put (draw c).1).respond (.word32 (lo32 (draw c).2))

/-- The loop of `Fill` (R162): `k` draws, of which `n` bytes are emitted, low-order bytes first. -/
def fillLoop {E : Type} (draw : E → E × Word) : Nat → Nat → E → E × List Byte
  | 0, _, c => (c, [])
  | k + 1, n, c =>
    let d := draw c
    let rest := fillLoop draw k (n - 8) d.1
    (rest.1, (bytes64 d.2).take (min 8 n) ++ rest.2)

/-- `Fill(e, n)`: `n` bytes, `ceil(n / 8)` draws (R162). -/
def fill {E : Type} (draw : E → E × Word) (n : Nat) (c : E) : E × List Byte :=
  fillLoop draw ((n + 7) / 8) n c

/-- FILL: `n` bytes of draws; NotSeeded when the valid bit is 0, also for `n = 0` (R163 to R165, R204). -/
def outFill {E : Type} (draw : E → E × Word) (n : Nat) (e : Option E) (put : E → State) (s : State) :
    State :=
  match e with
  | none => s.raise .notSeeded
  | some c => (put (fill draw n c).1).respond (.filled (fill draw n c).2)

/-- JUMP: the jumped state written back in place, no output; NotSeeded when the valid bit is 0
(R170, R178, R204). -/
def outJump {E : Type} (jump : E → E) (e : Option E) (put : E → State) (s : State) : State :=
  match e with
  | none => s.raise .notSeeded
  | some c => (put (jump c)).respond .done

end Sys2Proof.Machine
end

