-- ==== Sys2Proof/Machine/Sm64.lean ====
section
/-! DEFINITION. The meanings of the seven SM64 commands (41_splitmix64.md rules R103 to R107,
44_contract_fill_jump.md rules R163, R172). -/

namespace Sys2Proof.Machine

/-- SEEDB.SM64 (R103): the seed word is the state; every seed succeeds. -/
def execSeedbSm64 (w : Word) (s : State) : Host.Outcome State Fault Refusal := .next (s.seedSm w)

/-- SEEDI.SM64 (R104): the integer is the state itself, no expansion. -/
def execSeediSm64 (v : Word) (s : State) : Host.Outcome State Fault Refusal := .next (s.seedSm v)

/-- SEEDE.SM64 (R105): one draw of 8 bytes, never a redraw; EntropySourceUnavailable when it fails. -/
def execSeedeSm64 (s : State) : Host.Outcome State Fault Refusal :=
  let d := s.entDraw 8
  .next (match d.1 with
    | none => d.2.raise .entropySourceUnavailable
    | some b => d.2.seedSm (le64 b))

/-- NEXT64.SM64 (R106). -/
def execNext64Sm64 (s : State) : Host.Outcome State Fault Refusal :=
  .next (outNext64 Sm.draw s.sm s.setSm s)

/-- NEXT32.SM64 (R107). -/
def execNext32Sm64 (s : State) : Host.Outcome State Fault Refusal :=
  .next (outNext32 Sm.draw s.sm s.setSm s)

/-- FILL.SM64 (R163). -/
def execFillSm64 (len : BitVec 24) (s : State) : Host.Outcome State Fault Refusal :=
  .next (outFill Sm.draw len.toNat s.sm s.setSm s)

/-- JUMP.SM64 (R172). -/
def execJumpSm64 (s : State) : Host.Outcome State Fault Refusal :=
  .next (outJump (Sm.jump s.strides.sm64) s.sm s.setSm s)

end Sys2Proof.Machine
end

