-- ==== Sys2Proof/Machine/X1024.lean ====
section
/-! DEFINITION. The meanings of the seven X1024 commands (43_xorshift1024star.md rules R142 to R146,
44_contract_fill_jump.md rules R165, R174). -/

namespace Sys2Proof.Machine

/-- SEEDB.X1024 (R142): the sixteen seed words, the pointer 0; InvalidSeed if all are zero. -/
def execSeedbX1024 (ws : Vector Word 16) (s : State) : Host.Outcome State Fault Refusal :=
  .next (s.seedXs ws)

/-- SEEDI.X1024 (R143): sixteen outputs of a private SplitMix64; the zero test is kept and never
fires. -/
def execSeediX1024 (v : Word) (s : State) : Host.Outcome State Fault Refusal :=
  let out := expand v 16
  .next (s.seedXs (words16 fun i => out.getD i.toNat 0))

/-- SEEDE.X1024 (R144): one draw of 128 bytes; an all-zero draw is rejected and the frame goes on
(log entry 5). -/
def execSeedeX1024 (s : State) : Host.Outcome State Fault Refusal :=
  let d := s.entDraw 128
  .next (d.2.seedXsFrom d.1)

/-- NEXT64.X1024 (R145). -/
def execNext64X1024 (s : State) : Host.Outcome State Fault Refusal :=
  .next (outNext64 Xs.draw s.xs s.setXs s)

/-- NEXT32.X1024 (R146). -/
def execNext32X1024 (s : State) : Host.Outcome State Fault Refusal :=
  .next (outNext32 Xs.draw s.xs s.setXs s)

/-- FILL.X1024 (R165). -/
def execFillX1024 (len : BitVec 24) (s : State) : Host.Outcome State Fault Refusal :=
  .next (outFill Xs.draw len.toNat s.xs s.setXs s)

/-- JUMP.X1024 (R174). -/
def execJumpX1024 (s : State) : Host.Outcome State Fault Refusal :=
  .next (outJump (Xs.jump s.strides.x1024) s.xs s.setXs s)

end Sys2Proof.Machine
end

