-- ==== Sys2Proof/Machine/X128.lean ====
section
/-! DEFINITION. The meanings of the eight X128 commands (42_xoroshiro128plus.md rules R122 to R127,
44_contract_fill_jump.md rules R164, R173). -/

namespace Sys2Proof.Machine

/-- SEEDB.X128 (R122): the two seed words are the state; InvalidSeed if both are zero. -/
def execSeedbX128 (w0 w1 : Word) (s : State) : Host.Outcome State Fault Refusal :=
  .next (s.seedXo ⟨w0, w1⟩)

/-- SEEDI.X128 (R123): two outputs of a private SplitMix64; the zero test is kept and never fires. -/
def execSeediX128 (v : Word) (s : State) : Host.Outcome State Fault Refusal :=
  let out := expand v 2
  .next (s.seedXo ⟨out.getD 0 0, out.getD 1 0⟩)

/-- SEEDE.X128 (R124): one draw of 16 bytes; an all-zero draw is rejected and the frame goes on
(log entry 5). -/
def execSeedeX128 (s : State) : Host.Outcome State Fault Refusal :=
  let d := s.entDraw 16
  .next (d.2.seedXoFrom d.1)

/-- SEEDD.X128 (R125): the open pair `UNSEEDED_X128`. -/
def execSeeddX128 (s : State) : Host.Outcome State Fault Refusal :=
  .next ((s.setXo ⟨Config.unseededX128.1, Config.unseededX128.2⟩).respond .done)

/-- NEXT64.X128 (R126). -/
def execNext64X128 (s : State) : Host.Outcome State Fault Refusal :=
  .next (outNext64 Xo.draw s.xo s.setXo s)

/-- NEXT32.X128 (R127). -/
def execNext32X128 (s : State) : Host.Outcome State Fault Refusal :=
  .next (outNext32 Xo.draw s.xo s.setXo s)

/-- FILL.X128 (R164). -/
def execFillX128 (len : BitVec 24) (s : State) : Host.Outcome State Fault Refusal :=
  .next (outFill Xo.draw len.toNat s.xo s.setXo s)

/-- JUMP.X128 (R173). -/
def execJumpX128 (s : State) : Host.Outcome State Fault Refusal :=
  .next (outJump (Xo.jump s.strides.x128) s.xo s.setXo s)

end Sys2Proof.Machine
end

