-- ==== Sys2Proof/Machine/Dispatch.lean ====
section
/-! DEFINITION. The dispatch of a command to its meaning, one arm per constructor of `Instr`. -/

namespace Sys2Proof.Machine

def exec (i : Instr) (s : State) : Host.Outcome State Fault Refusal :=
  match i with
  | .seedbSm64 w => Sys2Proof.Machine.execSeedbSm64 w s
  | .seediSm64 v => Sys2Proof.Machine.execSeediSm64 v s
  | .seedeSm64 => Sys2Proof.Machine.execSeedeSm64 s
  | .next64Sm64 => Sys2Proof.Machine.execNext64Sm64 s
  | .next32Sm64 => Sys2Proof.Machine.execNext32Sm64 s
  | .fillSm64 len => Sys2Proof.Machine.execFillSm64 len s
  | .jumpSm64 => Sys2Proof.Machine.execJumpSm64 s
  | .seedbX128 w0 w1 => Sys2Proof.Machine.execSeedbX128 w0 w1 s
  | .seediX128 v => Sys2Proof.Machine.execSeediX128 v s
  | .seedeX128 => Sys2Proof.Machine.execSeedeX128 s
  | .seeddX128 => Sys2Proof.Machine.execSeeddX128 s
  | .next64X128 => Sys2Proof.Machine.execNext64X128 s
  | .next32X128 => Sys2Proof.Machine.execNext32X128 s
  | .fillX128 len => Sys2Proof.Machine.execFillX128 len s
  | .jumpX128 => Sys2Proof.Machine.execJumpX128 s
  | .seedbX1024 ws => Sys2Proof.Machine.execSeedbX1024 ws s
  | .seediX1024 v => Sys2Proof.Machine.execSeediX1024 v s
  | .seedeX1024 => Sys2Proof.Machine.execSeedeX1024 s
  | .next64X1024 => Sys2Proof.Machine.execNext64X1024 s
  | .next32X1024 => Sys2Proof.Machine.execNext32X1024 s
  | .fillX1024 len => Sys2Proof.Machine.execFillX1024 len s
  | .jumpX1024 => Sys2Proof.Machine.execJumpX1024 s

end Sys2Proof.Machine
end

