-- ==== Sys2Proof/Machine/Step.lean ====
section
/-! DEFINITION. One step of the block: take the next thing to do and do it (20_memory.md rules R46,
R49). -/

namespace Sys2Proof.Machine

/-- One step. An idle block keeps its state (60_exceptions.md rule R215); a reset event and an
Illegal frame are answered as 70_reset_and_hazards.md rule R230 and 60_exceptions.md rule R203 say; a
command is executed. -/
def step (s : State) : Host.Outcome State Fault Refusal :=
  match s.fetch with
  | (.idle, t) => .next t
  | (.reset, t) => .next t.resetEvent
  | (.illegal, t) => .next (t.raise .illegalCommand)
  | (.run i, t) => exec i t

/-- `s` with the frame whose bits are `w` as the next thing to do: first in the inbox, and no SEEDE
frame still executing (log entries 1, 13). -/
def State.withFetchWord (s : State) (nbits w : Nat) : State :=
  { s with redraw := none, inbox := .frame (tableFrame nbits w) :: s.inbox }

end Sys2Proof.Machine
end

