-- ==== Sys2Proof/Safety.lean ====
section
/-! DEFINITION. The terms in which the statements speak of the block: its engines, which commands
need a seeded engine, runs, the outputs of draws, and what holds of every state a run reaches
(10_state.md rules R22, R23, 30_encoding.md rule R70). -/

namespace Sys2Proof

/-- The three engines (00_scope.md rule R1, 30_encoding.md rule R63). -/
inductive Engine where
  | sm64
  | x128
  | x1024
deriving DecidableEq, Repr

/-- The engine a command names (its ENG field, R63). -/
def Instr.engine : Instr → Engine
  | .seedbSm64 _ | .seediSm64 _ | .seedeSm64 | .next64Sm64 | .next32Sm64 | .fillSm64 _
  | .jumpSm64 => .sm64
  | .seedbX128 _ _ | .seediX128 _ | .seedeX128 | .seeddX128 | .next64X128 | .next32X128
  | .fillX128 _ | .jumpX128 => .x128
  | .seedbX1024 _ | .seediX1024 _ | .seedeX1024 | .next64X1024 | .next32X1024 | .fillX1024 _
  | .jumpX1024 => .x1024

/-- NEXT64, NEXT32, FILL and JUMP: the commands that test the valid bit (10_state.md rule R24). -/
def Instr.needsSeeded : Instr → Bool
  | .next64Sm64 | .next32Sm64 | .fillSm64 _ | .jumpSm64 => true
  | .next64X128 | .next32X128 | .fillX128 _ | .jumpX128 => true
  | .next64X1024 | .next32X1024 | .fillX1024 _ | .jumpX1024 => true
  | .seedbSm64 _ | .seediSm64 _ | .seedeSm64 => false
  | .seedbX128 _ _ | .seediX128 _ | .seedeX128 | .seeddX128 => false
  | .seedbX1024 _ | .seediX1024 _ | .seedeX1024 => false

/-- The SEEDE commands: the only ones that draw entropy (60_exceptions.md rule R212). -/
def Instr.drawsEntropy : Instr → Bool
  | .seedeSm64 | .seedeX128 | .seedeX1024 => true
  | .seedbSm64 _ | .seediSm64 _ | .next64Sm64 | .next32Sm64 | .fillSm64 _ | .jumpSm64 => false
  | .seedbX128 _ _ | .seediX128 _ | .seeddX128 | .next64X128 | .next32X128 | .fillX128 _
  | .jumpX128 => false
  | .seedbX1024 _ | .seediX1024 _ | .next64X1024 | .next32X1024 | .fillX1024 _ | .jumpX1024 => false

namespace Machine

/-- The valid bit of an engine (10_state.md rule R24). -/
def State.valid (s : State) : Engine → Bool
  | .sm64 => s.smValid
  | .x128 => s.xoValid
  | .x1024 => s.xsValid

/-- Two states hold the same state of an engine: its words, pointer and valid bit. -/
def State.sameEngine (s t : State) : Engine → Prop
  | .sm64 => s.sm = t.sm
  | .x128 => s.xo = t.xo
  | .x1024 => s.xs = t.xs

/-- The first `k` outputs of an engine (44_contract_fill_jump.md rule R160). -/
def outputs {E : Type} (draw : E → E × Word) : Nat → E → List Word
  | 0, _ => []
  | k + 1, c => (draw c).2 :: outputs draw k (draw c).1

/-- `k` steps of the block. -/
def runSteps : Nat → State → Host.Outcome State Fault Refusal
  | 0, s => .next s
  | k + 1, s =>
    match step s with
    | .next t => runSteps k t
    | .fault r => .fault r
    | .refused r => .refused r

/-- Commands executed one after the other (20_memory.md rule R49). -/
def execAll : List Instr → State → Host.Outcome State Fault Refusal
  | [], s => .next s
  | i :: is, s =>
    match exec i s with
    | .next t => execAll is t
    | .fault r => .fault r
    | .refused r => .refused r

/-- The form of a response (30_encoding.md rule R70): a failed one carries no data, and none carries
both a word and bytes. -/
def Response.wellFormed (r : Response) : Bool :=
  if r.status = .ok then r.word.isNone || r.bytes.isNone else r.word.isNone && r.bytes.isNone

/-- `xo.valid = 1` implies that the two words are not both zero (10_state.md rule R22). -/
def State.xoInv (s : State) : Prop := ∀ e, s.xo = some e → e.isZero = false

/-- `xs.valid = 1` implies that the sixteen words are not all zero (10_state.md rule R23). -/
def State.xsInv (s : State) : Prop := ∀ e, s.xs = some e → e.isZero = false

/-- Every response sent has the form of R70. -/
def State.outboxInv (s : State) : Prop := ∀ r ∈ s.outbox, r.wellFormed = true

/-- The invariant of the block. -/
structure State.Inv (s : State) : Prop where
  xo : s.xoInv
  xs : s.xsInv
  outbox : s.outboxInv

/-- The states a run can be in: from reset, at any strides, with any list of host inputs and any
answers of the entropy source lined up, after any number of steps (70_reset_and_hazards.md rule R235). -/
inductive Reachable : State → Prop where
  | start (strides : Strides) (inputs : List HostInput) (answers : List EntAnswer) :
      Reachable { State.reset with strides := strides, inbox := inputs, entropy := answers }
  | next {s t : State} : Reachable s → step s = .next t → Reachable t

end Machine

end Sys2Proof
end

