-- ==== Sys2Proof/Certificates/Slice0/Obligations.lean ====
section
/-! DEFINITION. The statements for the provers, file by file of spec/. Each says which rule it
formalises. The equations `exec i s = .next { s with ... }` state the frame too: every field not
named is unchanged. -/

open Sys2Proof Sys2Proof.Machine

/-! ## Frames and decoding (30_encoding.md, 00_scope.md rule R9) -/

/-- Every command is read back from its frame, with every operand at every value (R60, R65, R72,
R75). -/
def Obligations.DecodeEncodeRoundTrip : Prop := ∀ i : Instr, decode (encode i) = .command i

/-- Every frame that decodes is the frame of the command it decodes to, so no two frames stand for
one command (R66, R72, R75). -/
def Obligations.EncodeDecodeRoundTrip : Prop :=
  ∀ (f : Frame) (i : Instr), decode f = .command i → encode i = f

/-- The frames that are Illegal are exactly those that meet one of the seven conditions of R67, (a)
to (g), with the fields read off the number of the command word (R61) and the payload length of R65.
-/
def Obligations.IllegalFramesExactly : Prop :=
  ∀ f : Frame, (∃ why, decode f = .illegal why) ↔
    f.cw.toNat / 64 % 4 ≠ 0 ∨ f.cw.toNat / 16 % 4 = 3 ∨ f.cw.toNat % 16 = 0 ∨
    9 ≤ f.cw.toNat % 16 ∨ (f.cw.toNat / 256 ≠ 0 ∧ f.cw.toNat % 16 ≠ 7) ∨
    (f.cw.toNat % 16 = 4 ∧ f.cw.toNat / 16 % 4 ≠ 1) ∨ f.payload.length ≠ payLen f.op f.eng

/-- OP, ENG, RSV and LEN are the bits 3:0, 5:4, 7:6 and 31:8 of the command word (R61), and the
payload lengths are those of the table of R65, for the codes of the three engines (R63). -/
def Obligations.CommandWordFields : Prop :=
  (∀ f : Frame, f.op.toNat = f.cw.toNat % 16 ∧ f.eng.toNat = f.cw.toNat / 16 % 4 ∧
    f.rsv.toNat = f.cw.toNat / 64 % 4 ∧ f.len.toNat = f.cw.toNat / 256) ∧
  ∀ op eng, eng ≠ 3 → payLen op eng =
    if op = 1 then (if eng = 0 then 8 else if eng = 1 then 16 else 128)
    else if op = 2 then 8 else 0

/-- Twelve command words of the opcode map R75 decode to the commands they stand for: a seeding, an
output, a FILL and a JUMP of each engine among them. -/
def Obligations.SampleCommandWords : Prop :=
  decode ⟨0x00000003#32, []⟩ = .command .seedeSm64 ∧
  decode ⟨0x00000005#32, []⟩ = .command .next64Sm64 ∧
  decode ⟨0x00000907#32, []⟩ = .command (.fillSm64 9) ∧
  decode ⟨0x00000008#32, []⟩ = .command .jumpSm64 ∧
  decode ⟨0x00000014#32, []⟩ = .command .seeddX128 ∧
  decode ⟨0x00000016#32, []⟩ = .command .next32X128 ∧
  decode ⟨0x00001417#32, []⟩ = .command (.fillX128 20) ∧
  decode ⟨0x00000018#32, []⟩ = .command .jumpX128 ∧
  decode ⟨0x00000022#32, [1, 0, 0, 0, 0, 0, 0, 0]⟩ = .command (.seediX1024 1) ∧
  decode ⟨0x00000025#32, []⟩ = .command .next64X1024 ∧
  decode ⟨0xFFFFFF27#32, []⟩ = .command (.fillX1024 16777215) ∧
  decode ⟨0x00000028#32, []⟩ = .command .jumpX1024

/-- LE64 is the sum of R9, and LE64 and Bytes64 undo each other (the spec marks the second part as
its own inference: "[derived: from the two definitions]"). -/
def Obligations.LittleEndianRoundTrip : Prop :=
  (∀ b0 b1 b2 b3 b4 b5 b6 b7 : Byte, (le64 [b0, b1, b2, b3, b4, b5, b6, b7]).toNat =
    b0.toNat + b1.toNat * 2 ^ 8 + b2.toNat * 2 ^ 16 + b3.toNat * 2 ^ 24 + b4.toNat * 2 ^ 32 +
      b5.toNat * 2 ^ 40 + b6.toNat * 2 ^ 48 + b7.toNat * 2 ^ 56) ∧
  (∀ w : Word, le64 (bytes64 w) = w) ∧
  (∀ b : List Byte, b.length = 8 → bytes64 (le64 b) = b)

/-- A frame whose payload has the length its command word calls for is cut back from any byte string
that begins with it (R60; R68, which the spec marks as its own inference: "[derived: from rule R60
and rule R65]"). -/
def Obligations.FrameStringRoundTrip : Prop :=
  ∀ (f : Frame) (rest : List Byte), f.payload.length = payLen f.op f.eng →
    Frame.cut (f.toBytes ++ rest) = some (f, rest)

/-! ## The step (20_memory.md, 60_exceptions.md, 70_reset_and_hazards.md) -/

/-- When no SEEDE frame is still executing and the inbox begins with a frame that decodes to a
command, a step takes the frame off the inbox and is `exec` of that command (R49, R66). That frames
wait in an inbox is log entry 1. -/
def Obligations.StepRunsDecodedCommand : Prop :=
  ∀ (s : State) (f : Frame) (rest : List HostInput) (i : Instr), s.redraw = none →
    s.inbox = .frame f :: rest → decode f = .command i → step s = exec i { s with inbox := rest }

/-- When no SEEDE frame is still executing and the inbox begins with a frame that does not decode, a
step takes it off the inbox, answers IllegalCommand with no data, writes no engine and draws no
entropy (R203). That frames wait in an inbox is log entry 1. -/
def Obligations.StepAnswersIllegalFrame : Prop :=
  ∀ (s : State) (f : Frame) (rest : List HostInput) (why : Illegal), s.redraw = none →
    s.inbox = .frame f :: rest → decode f = .illegal why →
    step s = .next { s with inbox := rest, outbox := s.outbox ++ [⟨.illegalCommand, none, none⟩] }

/-- A reset event between frames clears the three valid bits, has no response and touches neither
the outbox nor the entropy source (R230). That an unseeded engine holds no words is log entry 3,
that the event waits in the inbox is log entry 11. -/
def Obligations.StepTakesReset : Prop :=
  ∀ (s : State) (rest : List HostInput), s.redraw = none → s.inbox = .reset :: rest →
    ∃ t, step s = .next t ∧ t.smValid = false ∧ t.xoValid = false ∧ t.xsValid = false ∧
      t = { s with inbox := rest, sm := none, xo := none, xs := none }

/-- A block with nothing to do holds its state (R215). That it steps at all is log entry 1. -/
def Obligations.IdleBlockHoldsState : Prop :=
  ∀ s : State, s.redraw = none → s.inbox = [] → step s = .next s

/-- A SEEDE frame that drew only all-zero seeds so far goes on before anything else is taken (R213).
That one step makes one draw is log entry 5. -/
def Obligations.StepGoesOnWithRedraw : Prop :=
  ∀ s : State, (s.redraw = some .x128 → step s = exec .seedeX128 s) ∧
    (s.redraw = some .x1024 → step s = exec .seedeX1024 s)

/-- The block never stops: every step has a next state, whatever the state (R205, R208, R209; log
entry 9). No step changes the strides, which are constants of the instance (R6, R26; that the state
carries them is log entry 7). -/
def Obligations.StepAlwaysAnswersNext : Prop := ∀ s : State, ∃ t, step s = .next t ∧ t.strides = s.strides

/-- After reset the three valid bits are 0 and no engine holds words (R30; log entry 3), and the
strides are the defaults 2^32, 2^64 and 2^512 of R171 (log entry 7). -/
def Obligations.ResetLeavesEnginesUnseeded : Prop :=
  State.reset.smValid = false ∧ State.reset.xoValid = false ∧ State.reset.xsValid = false ∧
    State.reset.sm = none ∧ State.reset.xo = none ∧ State.reset.xs = none ∧
    State.reset.strides = ⟨2 ^ 32, 2 ^ 64, 2 ^ 512⟩

/-! ## Engine SM64 (41_splitmix64.md, 44_contract_fill_jump.md) -/

/-- SEEDB.SM64 and SEEDI.SM64: the eight payload bytes, little-endian, become `sm.x`; the valid bit
is set, the status is OK whatever the seed, and nothing else changes (R103, R104). -/
def Obligations.SeedSm64FromPayload : Prop :=
  (∀ b : List Byte, b.length = 8 →
    decode ⟨0x00000001#32, b⟩ = .command (.seedbSm64 (le64 b)) ∧
    decode ⟨0x00000002#32, b⟩ = .command (.seediSm64 (le64 b))) ∧
  (∀ (w : Word) (s : State),
    exec (.seedbSm64 w) s =
      .next { s with sm := some ⟨w⟩, outbox := s.outbox ++ [⟨.ok, none, none⟩] } ∧
    exec (.seediSm64 w) s =
      .next { s with sm := some ⟨w⟩, outbox := s.outbox ++ [⟨.ok, none, none⟩] })

/-- SEEDE.SM64 makes one draw of 8 bytes; when it fails, EntropySourceUnavailable and no engine is
written; else the bytes, little-endian, become `sm.x`, zero included, the valid bit is set and the
status is OK (R105). -/
def Obligations.SeedSm64FromEntropy : Prop :=
  ∀ (s t : State) (a : Option (List Byte)), s.entDraw 8 = (a, t) →
    (a = none → exec .seedeSm64 s =
      .next { t with outbox := t.outbox ++ [⟨.entropySourceUnavailable, none, none⟩] }) ∧
    (∀ b, a = some b → exec .seedeSm64 s =
      .next { t with sm := some ⟨le64 b⟩, outbox := t.outbox ++ [⟨.ok, none, none⟩] })

/-- NEXT64.SM64 and NEXT32.SM64: GAMMA is added, the new word goes through the five stages of the
mix, and the response is the whole word or its low half; NotSeeded when `sm.valid = 0`; nothing else
changes (R101, R102, R106, R107). -/
def Obligations.DrawSm64Words : Prop :=
  ∀ s : State,
    (∀ e, s.sm = some e →
      let x' := e.x + 0x9E3779B97F4A7C15#64
      let z1 := x' ^^^ (x' >>> 30)
      let z2 := z1 * 0xBF58476D1CE4E5B9#64
      let z3 := z2 ^^^ (z2 >>> 27)
      let z4 := z3 * 0x94D049BB133111EB#64
      let z5 := z4 ^^^ (z4 >>> 31)
      exec .next64Sm64 s = .next { s with
        sm := some ⟨x'⟩, outbox := s.outbox ++ [⟨.ok, some (.word64 z5), none⟩] } ∧
      exec .next32Sm64 s = .next { s with
        sm := some ⟨x'⟩, outbox := s.outbox ++ [⟨.ok, some (.word32 (z5.setWidth 32)), none⟩] }) ∧
    (s.sm = none →
      exec .next64Sm64 s = .next { s with outbox := s.outbox ++ [⟨.notSeeded, none, none⟩] } ∧
      exec .next32Sm64 s = .next { s with outbox := s.outbox ++ [⟨.notSeeded, none, none⟩] })

/-- FILL.SM64: the response holds the `LEN` bytes of `Fill(SM64, LEN)` and the state is the one it
leaves; NotSeeded when `sm.valid = 0`, also when `LEN = 0`; nothing else changes (R163). -/
def Obligations.FillSm64Bytes : Prop :=
  ∀ (len : BitVec 24) (s : State),
    (∀ e, s.sm = some e → exec (.fillSm64 len) s = .next { s with
      sm := some (fill Sm.draw len.toNat e).1,
      outbox := s.outbox ++ [⟨.ok, none, some (fill Sm.draw len.toNat e).2⟩] }) ∧
    (s.sm = none → exec (.fillSm64 len) s =
      .next { s with outbox := s.outbox ++ [⟨.notSeeded, none, none⟩] })

/-- JUMP.SM64 adds the instance's stride times GAMMA, wrapping, and answers OK; NotSeeded when
`sm.valid = 0`; nothing else changes (R172). At the default stride 2^32 (R171) the added constant is
`0x7F4A7C1500000000`. That the state carries the stride is log entry 7. -/
def Obligations.JumpSm64AddsConstant : Prop :=
  (∀ s : State,
    (∀ e, s.sm = some e → exec .jumpSm64 s = .next { s with
      sm := some ⟨e.x + BitVec.ofNat 64 s.strides.sm64 * 0x9E3779B97F4A7C15#64⟩,
      outbox := s.outbox ++ [⟨.ok, none, none⟩] }) ∧
    (s.sm = none → exec .jumpSm64 s =
      .next { s with outbox := s.outbox ++ [⟨.notSeeded, none, none⟩] })) ∧
  Config.defaultStrides.sm64 = 2 ^ 32 ∧
  BitVec.ofNat 64 Config.defaultStrides.sm64 * 0x9E3779B97F4A7C15#64 = 0x7F4A7C1500000000#64

/-- For every stride the closed form of JUMP.SM64 is that many draws (R170, R172; the spec marks the
equality as its own inference: "[derived: from 41_splitmix64.md rule R102]"). -/
def Obligations.JumpSm64IsIteratedDraw : Prop :=
  ∀ (J : Nat) (e : Sm), e.jump J = steps Sm.draw J e

/-- The mix is a bijection on words, and it sends 0, and only 0, to 0 (R108 (a), (b), which the spec
marks as its own inference: "[derived: from rule R100, rule R101 and rule R102]"). -/
def Obligations.MixIsBijective : Prop :=
  Function.Bijective mix64 ∧ ∀ z, mix64 z = 0 ↔ z = 0

/-- The state sequence of SM64 has period exactly 2^64: the state comes back after `n` draws exactly
when 2^64 divides `n` (R108 (e), which the spec marks as its own inference). -/
def Obligations.Sm64StatePeriod : Prop :=
  ∀ (n : Nat) (e : Sm), steps Sm.draw n e = e ↔ 2 ^ 64 ∣ n

/-! ## Engine X128 (42_xoroshiro128plus.md, 44_contract_fill_jump.md) -/

/-- SEEDB.X128: the two little-endian words of the payload become the pair, the valid bit is set and
the status is OK, unless both are zero: then InvalidSeed and no engine changes (R122). -/
def Obligations.SeedX128FromBytes : Prop :=
  (∀ b : List Byte, b.length = 16 →
    decode ⟨0x00000011#32, b⟩ = .command (.seedbX128 (le64 (b.take 8)) (le64 (b.drop 8)))) ∧
  (∀ (w0 w1 : Word) (s : State),
    (¬(w0 = 0 ∧ w1 = 0) → exec (.seedbX128 w0 w1) s =
      .next { s with xo := some ⟨w0, w1⟩, outbox := s.outbox ++ [⟨.ok, none, none⟩] }) ∧
    (w0 = 0 ∧ w1 = 0 → exec (.seedbX128 w0 w1) s =
      .next { s with outbox := s.outbox ++ [⟨.invalidSeed, none, none⟩] }))

/-- SEEDI.X128: the first two outputs of a private SplitMix64 whose word is `v` become the pair; the
status is OK for every `v` and nothing else changes (R123). That the all-zero test never fires is
the spec's own inference, R108 (d). -/
def Obligations.SeedX128FromInteger : Prop :=
  (∀ b : List Byte, b.length = 8 →
    decode ⟨0x00000012#32, b⟩ = .command (.seediX128 (le64 b))) ∧
  (∀ (v : Word) (s : State), exec (.seediX128 v) s = .next { s with
    xo := some ⟨mix64 (v + 0x9E3779B97F4A7C15#64),
      mix64 (v + 0x9E3779B97F4A7C15#64 + 0x9E3779B97F4A7C15#64)⟩,
    outbox := s.outbox ++ [⟨.ok, none, none⟩] })

/-- SEEDE.X128 after its draw of 16 bytes: Fail ends the frame with EntropySourceUnavailable; an
all-zero draw is rejected and the frame is still executing; another draw is the pair and the status
is OK (R124). That one step makes one draw is log entry 5. -/
def Obligations.SeedX128FromEntropy : Prop :=
  ∀ (s t : State) (a : Option (List Byte)), s.entDraw 16 = (a, t) →
    (a = none → exec .seedeX128 s = .next { t with
      redraw := none, outbox := t.outbox ++ [⟨.entropySourceUnavailable, none, none⟩] }) ∧
    (∀ b, a = some b → le64 b = 0 ∧ le64 (b.drop 8) = 0 →
      exec .seedeX128 s = .next { t with redraw := some .x128 }) ∧
    (∀ b, a = some b → ¬(le64 b = 0 ∧ le64 (b.drop 8) = 0) → exec .seedeX128 s = .next { t with
      redraw := none, xo := some ⟨le64 b, le64 (b.drop 8)⟩,
      outbox := t.outbox ++ [⟨.ok, none, none⟩] })

/-- SEEDD.X128 loads `UNSEEDED_X128` and answers OK, and that pair is not (0, 0) (R125, R6). Nothing
is said of its value: it is the free value of log entry 6. -/
def Obligations.SeedX128Unseeded : Prop :=
  Config.unseededX128 ≠ (0, 0) ∧
  ∀ s : State, exec .seeddX128 s = .next { s with
    xo := some ⟨Config.unseededX128.1, Config.unseededX128.2⟩,
    outbox := s.outbox ++ [⟨.ok, none, none⟩] }

/-- NEXT64.X128 and NEXT32.X128: the response is the sum of the old pair or its low half, the new
pair is that of R121; NotSeeded when `xo.valid = 0`; nothing else changes (R121, R126, R127). -/
def Obligations.DrawX128Words : Prop :=
  ∀ s : State,
    (∀ e, s.xo = some e →
      let result := e.s0 + e.s1
      let t := e.s1 ^^^ e.s0
      let n0 := (e.s0 <<< 55 ||| e.s0 >>> 9) ^^^ t ^^^ (t <<< 14)
      let n1 := t <<< 36 ||| t >>> 28
      exec .next64X128 s = .next { s with
        xo := some ⟨n0, n1⟩, outbox := s.outbox ++ [⟨.ok, some (.word64 result), none⟩] } ∧
      exec .next32X128 s = .next { s with
        xo := some ⟨n0, n1⟩,
        outbox := s.outbox ++ [⟨.ok, some (.word32 (result.setWidth 32)), none⟩] }) ∧
    (s.xo = none →
      exec .next64X128 s = .next { s with outbox := s.outbox ++ [⟨.notSeeded, none, none⟩] } ∧
      exec .next32X128 s = .next { s with outbox := s.outbox ++ [⟨.notSeeded, none, none⟩] })

/-- FILL.X128: the response holds the `LEN` bytes of `Fill(X128, LEN)` and the state is the one it
leaves; NotSeeded when `xo.valid = 0`, also when `LEN = 0`; nothing else changes (R164). -/
def Obligations.FillX128Bytes : Prop :=
  ∀ (len : BitVec 24) (s : State),
    (∀ e, s.xo = some e → exec (.fillX128 len) s = .next { s with
      xo := some (fill Xo.draw len.toNat e).1,
      outbox := s.outbox ++ [⟨.ok, none, some (fill Xo.draw len.toNat e).2⟩] }) ∧
    (s.xo = none → exec (.fillX128 len) s =
      .next { s with outbox := s.outbox ++ [⟨.notSeeded, none, none⟩] })

/-- JUMP.X128 writes back the state as many draws ahead as the instance's stride says and answers
OK; NotSeeded when `xo.valid = 0`; nothing else changes (R170, R173, R178). The default stride is
2^64 (R171). That the state carries the stride is log entry 7. -/
def Obligations.JumpX128CommandIsDraws : Prop :=
  Config.defaultStrides.x128 = 2 ^ 64 ∧
  ∀ s : State,
    (∀ e, s.xo = some e → exec .jumpX128 s = .next { s with
      xo := some (steps Xo.draw s.strides.x128 e),
      outbox := s.outbox ++ [⟨.ok, none, none⟩] }) ∧
    (s.xo = none → exec .jumpX128 s =
      .next { s with outbox := s.outbox ++ [⟨.notSeeded, none, none⟩] })

/-- The polynomial method of R175 computes the jump of R170, for every stride and from every pair
(the spec marks R175 as its own inference: "[derived: from 42_xoroshiro128plus.md rule R121 and rule
R170]"). -/
def Obligations.JumpX128IsIteratedDraw : Prop :=
  ∀ (J : Nat) (e : Xo), e.jump J = steps Xo.draw J e

/-- The step of X128 is a bijection, and only the all-zero pair becomes all zero (R128 (a), (b) and
R29, which the spec marks as its own inferences). -/
def Obligations.X128StepIsBijective : Prop :=
  Function.Bijective (fun e : Xo => e.draw.1) ∧ ∀ e : Xo, e.draw.1.isZero = e.isZero

/-! ## Engine X1024 (43_xorshift1024star.md, 44_contract_fill_jump.md) -/

/-- SEEDB.X1024: the sixteen little-endian words of the payload become the words, the pointer
becomes 0, the valid bit is set and the status is OK, unless all are zero: then InvalidSeed and no
engine changes (R142). -/
def Obligations.SeedX1024FromBytes : Prop :=
  (∀ b : List Byte, b.length = 128 → decode ⟨0x00000021#32, b⟩ =
    .command (.seedbX1024 (words16 fun i => le64 ((b.drop (8 * i.toNat)).take 8)))) ∧
  (∀ (ws : Vector Word 16) (s : State),
    (ws ≠ words16 (fun _ => 0) → exec (.seedbX1024 ws) s =
      .next { s with xs := some ⟨ws, 0⟩, outbox := s.outbox ++ [⟨.ok, none, none⟩] }) ∧
    (ws = words16 (fun _ => 0) → exec (.seedbX1024 ws) s =
      .next { s with outbox := s.outbox ++ [⟨.invalidSeed, none, none⟩] }))

/-- SEEDI.X1024: word `i` becomes output `i + 1` of a private SplitMix64 whose word is `v`, the
pointer becomes 0; the status is OK for every `v` and nothing else changes (R143). That the all-zero
test never fires is the spec's own inference, R108 (d). -/
def Obligations.SeedX1024FromInteger : Prop :=
  (∀ b : List Byte, b.length = 8 →
    decode ⟨0x00000022#32, b⟩ = .command (.seediX1024 (le64 b))) ∧
  (∀ (v : Word) (s : State), exec (.seediX1024 v) s = .next { s with
    xs := some ⟨words16 fun i =>
      mix64 (v + BitVec.ofNat 64 (i.toNat + 1) * 0x9E3779B97F4A7C15#64), 0⟩,
    outbox := s.outbox ++ [⟨.ok, none, none⟩] })

/-- SEEDE.X1024 after its draw of 128 bytes: Fail ends the frame with EntropySourceUnavailable; an
all-zero draw is rejected and the frame is still executing; another draw gives the words, the
pointer becomes 0 and the status is OK (R144). That one step makes one draw is log entry 5. -/
def Obligations.SeedX1024FromEntropy : Prop :=
  ∀ (s t : State) (a : Option (List Byte)), s.entDraw 128 = (a, t) →
    (a = none → exec .seedeX1024 s = .next { t with
      redraw := none, outbox := t.outbox ++ [⟨.entropySourceUnavailable, none, none⟩] }) ∧
    (∀ b, a = some b → words16 (fun i => le64 (b.drop (8 * i.toNat))) = words16 (fun _ => 0) →
      exec .seedeX1024 s = .next { t with redraw := some .x1024 }) ∧
    (∀ b, a = some b → words16 (fun i => le64 (b.drop (8 * i.toNat))) ≠ words16 (fun _ => 0) →
      exec .seedeX1024 s = .next { t with
        redraw := none, xs := some ⟨words16 fun i => le64 (b.drop (8 * i.toNat)), 0⟩,
        outbox := t.outbox ++ [⟨.ok, none, none⟩] })

/-- NEXT64.X1024 and NEXT32.X1024: one word changes, the one at the new pointer, and the response is
that new word times STAR or the low half of it; NotSeeded when `xs.valid = 0`; nothing else changes
(R141, R145, R146). -/
def Obligations.DrawX1024Words : Prop :=
  ∀ s : State,
    (∀ e, s.xs = some e →
      let a := e.word e.p
      let p1 := e.p + 1
      let b0 := e.word p1
      let b := b0 ^^^ (b0 <<< 31)
      let n := b ^^^ a ^^^ (b >>> 11) ^^^ (a >>> 30)
      let out := n * 1181783497276652981#64
      let e' : Xs := ⟨words16 fun i => if i = p1 then n else e.word i, p1⟩
      exec .next64X1024 s = .next { s with
        xs := some e', outbox := s.outbox ++ [⟨.ok, some (.word64 out), none⟩] } ∧
      exec .next32X1024 s = .next { s with
        xs := some e', outbox := s.outbox ++ [⟨.ok, some (.word32 (out.setWidth 32)), none⟩] }) ∧
    (s.xs = none →
      exec .next64X1024 s = .next { s with outbox := s.outbox ++ [⟨.notSeeded, none, none⟩] } ∧
      exec .next32X1024 s = .next { s with outbox := s.outbox ++ [⟨.notSeeded, none, none⟩] })

/-- FILL.X1024: the response holds the `LEN` bytes of `Fill(X1024, LEN)` and the state is the one it
leaves, with the pointer advanced by `ceil(LEN / 8)` modulo 16; NotSeeded when `xs.valid = 0`, also
when `LEN = 0`; nothing else changes (R165). -/
def Obligations.FillX1024Bytes : Prop :=
  ∀ (len : BitVec 24) (s : State),
    (∀ e, s.xs = some e → exec (.fillX1024 len) s = .next { s with
      xs := some (fill Xs.draw len.toNat e).1,
      outbox := s.outbox ++ [⟨.ok, none, some (fill Xs.draw len.toNat e).2⟩] } ∧
      (fill Xs.draw len.toNat e).1.p = e.p + BitVec.ofNat 4 ((len.toNat + 7) / 8)) ∧
    (s.xs = none → exec (.fillX1024 len) s =
      .next { s with outbox := s.outbox ++ [⟨.notSeeded, none, none⟩] })

/-- JUMP.X1024 writes back the state as many draws ahead as the instance's stride says and answers
OK; the pointer becomes `(p + J) mod 16`, which at the default stride 2^512 (R171) is where it was;
NotSeeded when `xs.valid = 0`; nothing else changes (R170, R174, R178). That the state carries the
stride is log entry 7. -/
def Obligations.JumpX1024CommandIsDraws : Prop :=
  Config.defaultStrides.x1024 = 2 ^ 512 ∧
  ∀ s : State,
    (∀ e, s.xs = some e → exec .jumpX1024 s = .next { s with
      xs := some (steps Xs.draw s.strides.x1024 e),
      outbox := s.outbox ++ [⟨.ok, none, none⟩] } ∧
      (steps Xs.draw s.strides.x1024 e).p = e.p + BitVec.ofNat 4 s.strides.x1024 ∧
      (s.strides.x1024 = Config.defaultStrides.x1024 →
        (steps Xs.draw s.strides.x1024 e).p = e.p)) ∧
    (s.xs = none → exec .jumpX1024 s =
      .next { s with outbox := s.outbox ++ [⟨.notSeeded, none, none⟩] })

/-- The polynomial method of R176 computes the jump of R170, for every stride, from all words and
every pointer (the spec marks R176 as its own inference: "[derived: from 43_xorshift1024star.md rule
R141, rule R147 and rule R170]"). -/
def Obligations.JumpX1024IsIteratedDraw : Prop :=
  ∀ (J : Nat) (e : Xs), e.jump J = steps Xs.draw J e

/-- The step of X1024 on words and pointer is a bijection, and only all-zero words become all zero
(R147 (a) and R29, which the spec marks as its own inferences). -/
def Obligations.X1024StepIsBijective : Prop :=
  Function.Bijective (fun e : Xs => e.draw.1) ∧ ∀ e : Xs, e.draw.1.isZero = e.isZero

/-- After `k` draws from pointer `p` the pointer is `(p + k) mod 16`, whatever the words (R147 (b),
which the spec marks as its own inference: "[derived: from rule R141]"). -/
def Obligations.X1024PointerAfterDraws : Prop :=
  ∀ (k : Nat) (e : Xs), (steps Xs.draw k e).p.toNat = (e.p.toNat + k) % 16

/-- Two states of X1024 with the same words relative to their pointers give the same outputs, and
after any number of draws their words relative to their pointers are still the same (R147 (c), which
the spec marks as its own inference). -/
def Obligations.X1024RelativeWordsDecide : Prop :=
  ∀ (k : Nat) (e e' : Xs), (∀ i, e.word (e.p + i) = e'.word (e'.p + i)) →
    outputs Xs.draw k e = outputs Xs.draw k e' ∧
    ∀ i, (steps Xs.draw k e).word ((steps Xs.draw k e).p + i) =
      (steps Xs.draw k e').word ((steps Xs.draw k e').p + i)

/-! ## The generic contract (44_contract_fill_jump.md) -/

/-- `Fill(e, n)` makes `ceil(n / 8)` draws and its bytes are the first `n` of the bytes of those
draws, each draw low byte first, for every draw function (R162). -/
def Obligations.FillIsChunkedDraws : Prop :=
  ∀ (E : Type) (draw : E → E × Word) (n : Nat) (c : E),
    (fill draw n c).1 = steps draw ((n + 7) / 8) c ∧
    (fill draw n c).2 = ((outputs draw ((n + 7) / 8) c).flatMap bytes64).take n ∧
    (fill draw n c).2.length = n

/-- A FILL of `a + b` bytes is a FILL of `a` and then one of `b`, in bytes and end state, when `a`
is a multiple of 8 (R166 (c), which the spec marks as its own inference). -/
def Obligations.FillSplitsAtMultiplesOfEight : Prop :=
  ∀ (E : Type) (draw : E → E × Word) (a b : Nat) (c : E), a % 8 = 0 →
    fill draw (a + b) c =
      ((fill draw b (fill draw a c).1).1, (fill draw a c).2 ++ (fill draw b (fill draw a c).1).2)

/-- FILL of 8 bytes and NEXT64, and FILL of 4 bytes and NEXT32, leave the same state and give equal
response strings, for each engine and from every state (R166 (a), (b) and the last sentence of R71,
which the spec marks as its own inferences). The status codes are 0x00 to 0x04 (R70), and a response
string is the status byte followed by the 8 or 4 bytes of the word, low byte first, by the bytes, or
by nothing (R71). -/
def Obligations.FillMatchesNext : Prop :=
  (∀ (s : State) (p : Instr × Instr),
    p ∈ [(.fillSm64 8, .next64Sm64), (.fillX128 8, .next64X128), (.fillX1024 8, .next64X1024),
      (.fillSm64 4, .next32Sm64), (.fillX128 4, .next32X128), (.fillX1024 4, .next32X1024)] →
    ∃ (t : State) (r r' : Response), exec p.1 s = .next { t with outbox := s.outbox ++ [r] } ∧
      exec p.2 s = .next { t with outbox := s.outbox ++ [r'] } ∧ r.toBytes = r'.toBytes) ∧
  (Status.ok.code = 0x00 ∧ Status.invalidSeed.code = 0x01 ∧
    Status.entropySourceUnavailable.code = 0x02 ∧ Status.illegalCommand.code = 0x03 ∧
    Status.notSeeded.code = 0x04) ∧
  (∀ st : Status, (Response.mk st none none).toBytes = [st.code]) ∧
  (∀ (st : Status) (v : Word), (Response.mk st (some (.word64 v)) none).toBytes =
    st.code :: (List.range 8).map fun k => BitVec.ofNat 8 (v.toNat / 2 ^ (8 * k))) ∧
  (∀ (st : Status) (v : Half), (Response.mk st (some (.word32 v)) none).toBytes =
    st.code :: (List.range 4).map fun k => BitVec.ofNat 8 (v.toNat / 2 ^ (8 * k))) ∧
  (∀ (st : Status) (b : List Byte), (Response.mk st none (some b)).toBytes = st.code :: b)

/-- A jump and any number of draws commute in their effect on the state, for every stride and each
engine (R177 (a), which the spec marks as its own inference: "[derived: from rule R170]"). -/
def Obligations.JumpCommutesWithDraws : Prop :=
  ∀ J k : Nat,
    (∀ e : Sm, steps Sm.draw k (e.jump J) = (steps Sm.draw k e).jump J) ∧
    (∀ e : Xo, steps Xo.draw k (e.jump J) = (steps Xo.draw k e).jump J) ∧
    (∀ e : Xs, steps Xs.draw k (e.jump J) = (steps Xs.draw k e).jump J)

/-! ## The whole block (10_state.md, 20_memory.md, 60_exceptions.md, 70_reset_and_hazards.md) -/

/-- A command changes no engine but the one it names (R28). -/
def Obligations.CommandsKeepOtherEngines : Prop :=
  ∀ (i : Instr) (s t : State) (e : Engine), exec i s = .next t → e ≠ i.engine → t.sameEngine s e

/-- What a command does to its engine, the response it sends and the entropy it uses depend only on
that engine's state, on the entropy source (R11, R27, R28) and on the strides of the instance (R6;
that the state carries them is log entry 7). -/
def Obligations.CommandDependsOnItsEngineOnly : Prop :=
  ∀ (i : Instr) (s s' : State), s.sameEngine s' i.engine → s.entropy = s'.entropy →
    s.entropyIndex = s'.entropyIndex → s.strides = s'.strides →
    ∃ (t t' : State) (sent : List Response), exec i s = .next t ∧ exec i s' = .next t' ∧
      t.sameEngine t' i.engine ∧ t.outbox = s.outbox ++ sent ∧ t'.outbox = s'.outbox ++ sent ∧
      t.entropy = t'.entropy ∧ t.entropyIndex = t'.entropyIndex

/-- A step that answers a frame with a status other than OK, and a step after which a SEEDE is still
executing, changes no word, no pointer and no valid bit of any engine: so a frame that fails, on a
redraw too, changes none, whether its command fails or it does not decode (R206). That such a frame
takes several steps, one draw each, is log entry 5. -/
def Obligations.FailedFrameChangesNoEngine : Prop :=
  ∀ s t : State, step s = .next t →
    t.redraw.isSome = true ∨ (∃ r : Response, t.outbox = s.outbox ++ [r] ∧ r.status ≠ .ok) →
    t.sm = s.sm ∧ t.xo = s.xo ∧ t.xs = s.xs

/-- Every command sends exactly one response, and a failed one carries no data, but for a SEEDE.X128
or SEEDE.X1024 whose draw is all zero: that frame is still executing and has sent none yet (R70,
R213). That one step makes one draw is log entry 5. -/
def Obligations.OneResponsePerFrame : Prop :=
  ∀ (i : Instr) (s t : State), exec i s = .next t →
    (∃ r : Response, r.wellFormed = true ∧ t.outbox = s.outbox ++ [r]) ∨
    (t.outbox = s.outbox ∧ ((i = .seedeX128 ∧ t.redraw = some .x128) ∨
      (i = .seedeX1024 ∧ t.redraw = some .x1024)))

/-- A valid bit goes from 1 to 0 only by a reset event, and from 0 to 1 only by a step that runs a
seeding command of that engine, taken from the inbox or still executing, which answers OK; and by no
execution of any other command (R24, R32). The inbox is log entry 1, the frame still executing log
entry 5. -/
def Obligations.ValidBitChanges : Prop :=
  (∀ (s t : State) (e : Engine), step s = .next t → s.valid e = true → t.valid e = false →
    s.redraw = none ∧ ∃ rest, s.inbox = .reset :: rest) ∧
  (∀ (s t : State) (e : Engine), step s = .next t → s.valid e = false → t.valid e = true →
    ∃ i : Instr,
      ((s.redraw = none ∧ ∃ f rest, s.inbox = .frame f :: rest ∧ decode f = .command i) ∨
        (s.redraw = some .x128 ∧ i = .seedeX128) ∨ (s.redraw = some .x1024 ∧ i = .seedeX1024)) ∧
      i.engine = e ∧ i.needsSeeded = false ∧ t.outbox = s.outbox ++ [⟨.ok, none, none⟩]) ∧
  (∀ (i : Instr) (s t : State) (e : Engine), exec i s = .next t → s.valid e = false →
    t.valid e = true → i.engine = e ∧ i.needsSeeded = false ∧
      t.outbox = s.outbox ++ [⟨.ok, none, none⟩])

/-- A command is answered InvalidSeed exactly when it is SEEDB.X128 or SEEDB.X1024 with an all-zero
seed: no SM64 command, no SEEDI, SEEDE, SEEDD or output command ever is (R201). That SEEDI never is
rests on the spec's own inference R108 (d). -/
def Obligations.InvalidSeedOnlyForZeroSeed : Prop :=
  ∀ (i : Instr) (s t : State) (r : Response), exec i s = .next t → t.outbox = s.outbox ++ [r] →
    (r.status = .invalidSeed ↔ i = .seedbX128 0 0 ∨ i = .seedbX1024 (words16 fun _ => 0))

/-- On a seeded engine NEXT64, NEXT32, FILL and JUMP always answer OK, whatever the state (R205). -/
def Obligations.SeededEngineNeverFails : Prop :=
  ∀ (i : Instr) (s : State), i.needsSeeded = true → s.valid i.engine = true →
    ∃ (t : State) (r : Response), exec i s = .next t ∧ t.outbox = s.outbox ++ [r] ∧ r.status = .ok

/-- On an unseeded engine NEXT64, NEXT32, FILL and JUMP of that engine are answered NotSeeded with
no word and no bytes, and change nothing (R204). -/
def Obligations.UnseededEngineAnswersNotSeeded : Prop :=
  ∀ (i : Instr) (s : State), i.needsSeeded = true → s.valid i.engine = false →
    exec i s = .next { s with outbox := s.outbox ++ [⟨.notSeeded, none, none⟩] }

/-- A request for `n` bytes is answered with exactly `n` bytes or a failure; every `n` bytes and the
failure are possible answers; an answer lined up is used up; the draw changes nothing of the block
(R212). How answers are held is log entry 4. -/
def Obligations.EntropyDrawAnswers : Prop :=
  ∀ (n : Nat) (s : State), n ≤ 128 →
    (∀ b, (s.entDraw n).1 = some b → b.length = n) ∧
    (∀ b : List Byte, b.length = n → ∃ a, EntAnswer.take n a = some b) ∧
    EntAnswer.take n .fail = none ∧
    (∀ a rest, s.entropy = a :: rest →
      s.entDraw n = (EntAnswer.take n a, { s with entropy := rest })) ∧
    (s.entropy = [] → (s.entDraw n).2 = { s with entropyIndex := s.entropyIndex + 1 })

/-- While the source answers `k` times all zero a SEEDE.X128 keeps executing, with no response and
nothing of the block changed; the first answer after them that is not all zero ends it with OK
(R124, R213). That one step makes one draw is log entry 5, how answers are lined up is log entry 4.
-/
def Obligations.RedrawEndsAtFirstNonZeroSeed : Prop :=
  ∀ (k : Nat) (s : State) (b : Vector Byte 128) (rest : List EntAnswer),
    s.entropy = List.replicate k (.ok (Vector.replicate 128 0)) ++ .ok b :: rest →
    (s.redraw = some .x128 →
      runSteps k s = .next { s with entropy := .ok b :: rest } ∧
      (¬(le64 (b.toList.take 16) = 0 ∧ le64 ((b.toList.take 16).drop 8) = 0) →
        runSteps (k + 1) s = .next { s with
          entropy := rest, redraw := none,
          xo := some ⟨le64 (b.toList.take 16), le64 ((b.toList.take 16).drop 8)⟩,
          outbox := s.outbox ++ [⟨.ok, none, none⟩] })) ∧
    (s.redraw = some .x1024 →
      runSteps k s = .next { s with entropy := .ok b :: rest } ∧
      (words16 (fun i => le64 (b.toList.drop (8 * i.toNat))) ≠ words16 (fun _ => 0) →
        runSteps (k + 1) s = .next { s with
          entropy := rest, redraw := none,
          xs := some ⟨words16 fun i => le64 (b.toList.drop (8 * i.toNat)), 0⟩,
          outbox := s.outbox ++ [⟨.ok, none, none⟩] }))

/-- As many steps as there are frames take them all and send as many responses, one each, when none
of them is a SEEDE that can draw again (R49, R70, R234, R235). The inbox and the outbox are log
entries 1 and 2. -/
def Obligations.FramesAreAnsweredInOrder : Prop :=
  ∀ (fs : List Frame) (s : State) (rest : List HostInput), s.redraw = none →
    s.inbox = fs.map HostInput.frame ++ rest →
    (∀ f ∈ fs, decode f ≠ .command .seedeX128 ∧ decode f ≠ .command .seedeX1024) →
    ∃ (t : State) (sent : List Response), runSteps fs.length s = .next t ∧ t.inbox = rest ∧
      t.redraw = none ∧ t.outbox = s.outbox ++ sent ∧ sent.length = fs.length

/-- The state of an engine after a list of commands is its state after those of them that name it,
when none of these draws entropy: no command to the other engines disturbs it, their SEEDE included
(R28, R49 (a)). -/
def Obligations.StreamsAreIndependent : Prop :=
  ∀ (e : Engine) (l : List Instr) (s : State),
    (∀ i ∈ l, i.engine = e → i.drawsEntropy = false) →
    ∃ t u, execAll l s = .next t ∧ execAll (l.filter fun i => i.engine = e) s = .next u ∧
      t.sameEngine u e

/-- The reset state meets the invariant: no engine is seeded and nothing is sent (R22, R23, R30). -/
def Obligations.ResetMeetsInvariant : Prop := State.reset.Inv

/-- Every step keeps the invariant, from every state that meets it and for every stride: a seeded
X128 never holds two zero words, a seeded X1024 never sixteen, and no response that failed carries
data (R22, R23, R70; R29, which the spec marks as its own inference). -/
def Obligations.StepKeepsInvariant : Prop :=
  ∀ s t : State, s.Inv → step s = .next t → t.Inv

/-- Every state of a run from reset, at any strides, with any inputs and any answers of the entropy
source, meets the invariant (R235; R29, which the spec marks as its own inference). -/
def Obligations.ReachableStatesMeetInvariant : Prop := ∀ s : State, Reachable s → s.Inv
end

