-- ==== Sys2Proof/Laws/Words.lean ====
section
/-! SUPPORT. The sixteen words of X1024, read one by one (10_state.md rule R31). -/

namespace Sys2Proof.Laws

/-- The sixteen indices. -/
theorem index_cases (i : BitVec 4) : i = 0 ∨ i = 1 ∨ i = 2 ∨ i = 3 ∨ i = 4 ∨ i = 5 ∨ i = 6 ∨ i = 7 ∨
    i = 8 ∨ i = 9 ∨ i = 10 ∨ i = 11 ∨ i = 12 ∨ i = 13 ∨ i = 14 ∨ i = 15 := by
  revert i; decide

/-- Reading what `words16` built. -/
@[simp] theorem words16_get (f : BitVec 4 → Word) (i : BitVec 4) : (words16 f)[i.toNat] = f i := by
  rcases index_cases i with h | h | h | h | h | h | h | h | h | h | h | h | h | h | h | h <;>
    subst h <;> rfl

/-- Word arrays with the same sixteen words are equal. -/
theorem words_ext (v w : Vector Word 16) (h : ∀ i : BitVec 4, v[i.toNat] = w[i.toNat]) : v = w := by
  apply Vector.ext
  intro i hi
  have := h (BitVec.ofNat 4 i)
  have hn : (BitVec.ofNat 4 i).toNat = i := by
    rw [BitVec.toNat_ofNat]; omega
  simpa only [hn] using this

end Sys2Proof.Laws
end

