-- ==== Sys2Proof/Laws/PerInstr.lean ====
section
/-! SUPPORT. Per command: the frame that encodes it passes the six tests of 30_encoding.md rule R66,
and its byte string has one of the four lengths of rule R60. -/

namespace Sys2Proof.Laws.EncodedFrame

/-- The encoded frame is well formed, and 4, 12, 20 or 132 bytes long (R60, R65, R66, R72). -/
def Statement (i : Instr) : Prop :=
  (encode i).wellFormed = true ∧ (encode i).toBytes.length ∈ [4, 12, 20, 132]

/-- Only the length of the payload matters to the six tests. -/
theorem of_length (cw : BitVec 32) (p q : List Byte) (h : p.length = q.length)
    (hq : (Frame.mk cw q).wellFormed = true) (hb : 4 + q.length ∈ [4, 12, 20, 132]) :
    (Frame.mk cw p).wellFormed = true ∧ (Frame.mk cw p).toBytes.length ∈ [4, 12, 20, 132] := by
  constructor
  · have : (Frame.mk cw p).wellFormed = (Frame.mk cw q).wellFormed := by
      unfold Frame.wellFormed Frame.payloadFits
      show (_ && (p.length == _)) = (_ && (q.length == _))
      rw [h]
      rfl
    rw [this]; exact hq
  · show (bytes32 cw ++ p).length ∈ _
    rw [List.length_append, h]; exact hb

theorem seedBytes16_length (ws : Vector Word 16) : (seedBytes16 ws).length = 128 := by
  simp [seedBytes16, List.length_flatMap, bytes64, List.map_const']

/-- A FILL frame: LEN stands above the low byte (R61). -/
theorem fill_frame (len : BitVec 24) (low : BitVec 8) (h : low.extractLsb' 0 4 = 7#4) :
    (Frame.mk (len ++ low) []).op = 7 ∧ (Frame.mk (len ++ low) []).eng = low.extractLsb' 4 2 ∧
    (Frame.mk (len ++ low) []).rsv = low.extractLsb' 6 2 := by
  refine ⟨?_, ?_, ?_⟩ <;> simp only [Frame.op, Frame.eng, Frame.rsv]
  · rw [BitVec.extractLsb'_append_eq_of_add_le (by decide)]; exact h
  · rw [BitVec.extractLsb'_append_eq_of_add_le (by decide)]
  · rw [BitVec.extractLsb'_append_eq_of_add_le (by decide)]

/-- A frame of FILL for one of the engines passes the six tests. -/
theorem fill_statement (len : BitVec 24) (low : BitVec 8) (h : low ∈ [0x07#8, 0x17#8, 0x27#8]) :
    (Frame.mk (len ++ low) []).wellFormed = true := by
  obtain ⟨hop, hfit, heng, hrsv⟩ : low.extractLsb' 0 4 = 7#4 ∧ payLen 7#4 (low.extractLsb' 4 2) = 0 ∧
      low.extractLsb' 4 2 ≠ 3#2 ∧ low.extractLsb' 6 2 = 0#2 := by
    revert low; decide
  obtain ⟨ho, he, hr⟩ := fill_frame len low hop
  simp [Frame.wellFormed, Frame.reservedZero, Frame.engineKnown, Frame.operationKnown,
    Frame.lenAllowed, Frame.seeddAllowed, Frame.payloadFits, ho, he, hr, hfit, heng, hrsv]

theorem seedbSm64 (w : Word) : Statement (.seedbSm64 w) :=
  of_length _ _ (List.replicate 8 0) rfl (by decide) (by decide)

theorem seediSm64 (v : Word) : Statement (.seediSm64 v) :=
  of_length _ _ (List.replicate 8 0) rfl (by decide) (by decide)

theorem seedeSm64 : Statement .seedeSm64 := by unfold Statement; decide

theorem next64Sm64 : Statement .next64Sm64 := by unfold Statement; decide

theorem next32Sm64 : Statement .next32Sm64 := by unfold Statement; decide

theorem fillSm64 (len : BitVec 24) : Statement (.fillSm64 len) :=
  ⟨fill_statement len 0x07#8 (by decide), List.mem_cons_self⟩

theorem jumpSm64 : Statement .jumpSm64 := by unfold Statement; decide

theorem seedbX128 (w0 w1 : Word) : Statement (.seedbX128 w0 w1) :=
  of_length _ _ (List.replicate 16 0) rfl (by decide) (by decide)

theorem seediX128 (v : Word) : Statement (.seediX128 v) :=
  of_length _ _ (List.replicate 8 0) rfl (by decide) (by decide)

theorem seedeX128 : Statement .seedeX128 := by unfold Statement; decide

theorem seeddX128 : Statement .seeddX128 := by unfold Statement; decide

theorem next64X128 : Statement .next64X128 := by unfold Statement; decide

theorem next32X128 : Statement .next32X128 := by unfold Statement; decide

theorem fillX128 (len : BitVec 24) : Statement (.fillX128 len) :=
  ⟨fill_statement len 0x17#8 (by decide), List.mem_cons_self⟩

theorem jumpX128 : Statement .jumpX128 := by unfold Statement; decide

theorem seedbX1024 (ws : Vector Word 16) : Statement (.seedbX1024 ws) :=
  of_length _ _ (List.replicate 128 0) (seedBytes16_length ws) (by decide +kernel) (by decide +kernel)

theorem seediX1024 (v : Word) : Statement (.seediX1024 v) :=
  of_length _ _ (List.replicate 8 0) rfl (by decide) (by decide)

theorem seedeX1024 : Statement .seedeX1024 := by unfold Statement; decide

theorem next64X1024 : Statement .next64X1024 := by unfold Statement; decide

theorem next32X1024 : Statement .next32X1024 := by unfold Statement; decide

theorem fillX1024 (len : BitVec 24) : Statement (.fillX1024 len) :=
  ⟨fill_statement len 0x27#8 (by decide), List.mem_cons_self⟩

theorem jumpX1024 : Statement .jumpX1024 := by unfold Statement; decide

end Sys2Proof.Laws.EncodedFrame
end

