-- ==== Sys2Proof/Laws/Codec.lean ====
section
/-! SUPPORT. Byte order and decoding: what LE64 reads back (00_scope.md rule R9), and the decoder
through the six tests (30_encoding.md rule R66). -/

namespace Sys2Proof

theorem leNat_lt (b : List Byte) : leNat b < 256 ^ b.length := by
  induction b with
  | nil => simp [leNat]
  | cons a b ih =>
    have := a.isLt
    simp only [leNat, List.length_cons, Nat.pow_succ]
    omega

/-- LE64 reads the first eight bytes, whatever follows. -/
theorem le64_bytes64_append (w : Word) (t : List Byte) : le64 (bytes64 w ++ t) = w := by
  apply BitVec.eq_of_toNat_eq
  have := w.isLt
  simp [le64, bytes64, leNat, BitVec.extractLsb'_toNat, Nat.shiftRight_eq_div_pow]
  omega

/-- LE32 reads the first four bytes, whatever follows. -/
theorem le32_bytes32_append (v : BitVec 32) (t : List Byte) : le32 (bytes32 v ++ t) = v := by
  apply BitVec.eq_of_toNat_eq
  have := v.isLt
  simp [le32, bytes32, leNat, BitVec.extractLsb'_toNat, Nat.shiftRight_eq_div_pow]
  omega

/-- A frame that passes the six tests decodes to its row of the opcode map. -/
theorem decode_of_wellFormed (f : Frame) (h : f.wellFormed = true) (i : Instr)
    (hi : rowOf f = some i) : decode f = .command i := by
  simp only [Frame.wellFormed, Bool.and_eq_true] at h
  obtain ⟨⟨⟨⟨⟨h1, h2⟩, h3⟩, h4⟩, h5⟩, h6⟩ := h
  simp [decode, h1, h2, h3, h4, h5, h6, hi]

/-- A frame that fails one of the six tests is Illegal. -/
theorem decode_of_not_wellFormed (f : Frame) (h : f.wellFormed = false) :
    ∃ why, decode f = .illegal why := by
  unfold decode
  split
  · exact ⟨_, rfl⟩
  split
  · exact ⟨_, rfl⟩
  split
  · exact ⟨_, rfl⟩
  split
  · exact ⟨_, rfl⟩
  split
  · exact ⟨_, rfl⟩
  split
  · exact ⟨_, rfl⟩
  simp_all [Frame.wellFormed]

/-- Every frame that passes the six tests has a row, so the last case of `decode` is never met. -/
theorem rowOf_isSome (f : Frame) (h : f.wellFormed = true) : ∃ i, rowOf f = some i := by
  simp only [Frame.wellFormed, Bool.and_eq_true, Frame.engineKnown, Frame.operationKnown,
    Frame.seeddAllowed, bne_iff_ne, decide_eq_true_eq, Bool.or_eq_true, beq_iff_eq] at h
  obtain ⟨⟨⟨⟨⟨-, h2⟩, h3⟩, -⟩, h5⟩, -⟩ := h
  have : ∀ (op : BitVec 4) (eng : BitVec 2), eng ≠ 3 → (op ≠ 0 ∧ op < 9) → (op ≠ 4 ∨ eng = 1) →
      (op.toNat, eng.toNat) ∈ [(1, 0), (2, 0), (3, 0), (5, 0), (6, 0), (7, 0), (8, 0),
        (1, 1), (2, 1), (3, 1), (4, 1), (5, 1), (6, 1), (7, 1), (8, 1),
        (1, 2), (2, 2), (3, 2), (5, 2), (6, 2), (7, 2), (8, 2)] := by decide
  have hm := this f.op f.eng h2 h3 h5
  unfold rowOf
  simp only [List.mem_cons, Prod.mk.injEq, List.not_mem_nil, or_false] at hm
  rcases hm with h | h | h | h | h | h | h | h | h | h | h | h | h | h | h | h | h | h | h | h | h | h <;>
    rw [h.1, h.2] <;> exact ⟨_, rfl⟩

end Sys2Proof
end

