-- ==== Sys2Proof/Laws/State.lean ====
section
/-! SUPPORT. One lemma per field of the state and per update: what the updates of Machine/Ops.lean
write and what they leave. Every one holds by unfolding, so that no later proof unfolds a record. -/

namespace Sys2Proof.Machine

variable (s : State)

/-! `State.respond` -/

@[simp] theorem State.respond_sm (r : Response) : (s.respond r).sm = s.sm := rfl
@[simp] theorem State.respond_xo (r : Response) : (s.respond r).xo = s.xo := rfl
@[simp] theorem State.respond_xs (r : Response) : (s.respond r).xs = s.xs := rfl
@[simp] theorem State.respond_inbox (r : Response) : (s.respond r).inbox = s.inbox := rfl
@[simp] theorem State.respond_outbox (r : Response) : (s.respond r).outbox = s.outbox ++ [r] := rfl
@[simp] theorem State.respond_redraw (r : Response) : (s.respond r).redraw = s.redraw := rfl
@[simp] theorem State.respond_entropy (r : Response) : (s.respond r).entropy = s.entropy := rfl
@[simp] theorem State.respond_entropyIndex (r : Response) : (s.respond r).entropyIndex = s.entropyIndex := rfl
@[simp] theorem State.respond_strides (r : Response) : (s.respond r).strides = s.strides := rfl

/-! `State.raise` -/

@[simp] theorem State.raise_sm (e : Status) : (s.raise e).sm = s.sm := rfl
@[simp] theorem State.raise_xo (e : Status) : (s.raise e).xo = s.xo := rfl
@[simp] theorem State.raise_xs (e : Status) : (s.raise e).xs = s.xs := rfl
@[simp] theorem State.raise_inbox (e : Status) : (s.raise e).inbox = s.inbox := rfl
@[simp] theorem State.raise_outbox (e : Status) : (s.raise e).outbox = s.outbox ++ [.failed e] := rfl
@[simp] theorem State.raise_redraw (e : Status) : (s.raise e).redraw = s.redraw := rfl
@[simp] theorem State.raise_entropy (e : Status) : (s.raise e).entropy = s.entropy := rfl
@[simp] theorem State.raise_entropyIndex (e : Status) : (s.raise e).entropyIndex = s.entropyIndex := rfl
@[simp] theorem State.raise_strides (e : Status) : (s.raise e).strides = s.strides := rfl

/-! `State.setSm` -/

@[simp] theorem State.setSm_sm (e : Sm) : (s.setSm e).sm = some e := rfl
@[simp] theorem State.setSm_xo (e : Sm) : (s.setSm e).xo = s.xo := rfl
@[simp] theorem State.setSm_xs (e : Sm) : (s.setSm e).xs = s.xs := rfl
@[simp] theorem State.setSm_inbox (e : Sm) : (s.setSm e).inbox = s.inbox := rfl
@[simp] theorem State.setSm_outbox (e : Sm) : (s.setSm e).outbox = s.outbox := rfl
@[simp] theorem State.setSm_redraw (e : Sm) : (s.setSm e).redraw = s.redraw := rfl
@[simp] theorem State.setSm_entropy (e : Sm) : (s.setSm e).entropy = s.entropy := rfl
@[simp] theorem State.setSm_entropyIndex (e : Sm) : (s.setSm e).entropyIndex = s.entropyIndex := rfl
@[simp] theorem State.setSm_strides (e : Sm) : (s.setSm e).strides = s.strides := rfl

/-! `State.setXo` -/

@[simp] theorem State.setXo_sm (e : Xo) : (s.setXo e).sm = s.sm := rfl
@[simp] theorem State.setXo_xo (e : Xo) : (s.setXo e).xo = some e := rfl
@[simp] theorem State.setXo_xs (e : Xo) : (s.setXo e).xs = s.xs := rfl
@[simp] theorem State.setXo_inbox (e : Xo) : (s.setXo e).inbox = s.inbox := rfl
@[simp] theorem State.setXo_outbox (e : Xo) : (s.setXo e).outbox = s.outbox := rfl
@[simp] theorem State.setXo_redraw (e : Xo) : (s.setXo e).redraw = s.redraw := rfl
@[simp] theorem State.setXo_entropy (e : Xo) : (s.setXo e).entropy = s.entropy := rfl
@[simp] theorem State.setXo_entropyIndex (e : Xo) : (s.setXo e).entropyIndex = s.entropyIndex := rfl
@[simp] theorem State.setXo_strides (e : Xo) : (s.setXo e).strides = s.strides := rfl

/-! `State.setXs` -/

@[simp] theorem State.setXs_sm (e : Xs) : (s.setXs e).sm = s.sm := rfl
@[simp] theorem State.setXs_xo (e : Xs) : (s.setXs e).xo = s.xo := rfl
@[simp] theorem State.setXs_xs (e : Xs) : (s.setXs e).xs = some e := rfl
@[simp] theorem State.setXs_inbox (e : Xs) : (s.setXs e).inbox = s.inbox := rfl
@[simp] theorem State.setXs_outbox (e : Xs) : (s.setXs e).outbox = s.outbox := rfl
@[simp] theorem State.setXs_redraw (e : Xs) : (s.setXs e).redraw = s.redraw := rfl
@[simp] theorem State.setXs_entropy (e : Xs) : (s.setXs e).entropy = s.entropy := rfl
@[simp] theorem State.setXs_entropyIndex (e : Xs) : (s.setXs e).entropyIndex = s.entropyIndex := rfl
@[simp] theorem State.setXs_strides (e : Xs) : (s.setXs e).strides = s.strides := rfl

/-! `State.setRedraw` -/

@[simp] theorem State.setRedraw_sm (r : Option Redraw) : (s.setRedraw r).sm = s.sm := rfl
@[simp] theorem State.setRedraw_xo (r : Option Redraw) : (s.setRedraw r).xo = s.xo := rfl
@[simp] theorem State.setRedraw_xs (r : Option Redraw) : (s.setRedraw r).xs = s.xs := rfl
@[simp] theorem State.setRedraw_inbox (r : Option Redraw) : (s.setRedraw r).inbox = s.inbox := rfl
@[simp] theorem State.setRedraw_outbox (r : Option Redraw) : (s.setRedraw r).outbox = s.outbox := rfl
@[simp] theorem State.setRedraw_redraw (r : Option Redraw) : (s.setRedraw r).redraw = r := rfl
@[simp] theorem State.setRedraw_entropy (r : Option Redraw) : (s.setRedraw r).entropy = s.entropy := rfl
@[simp] theorem State.setRedraw_entropyIndex (r : Option Redraw) : (s.setRedraw r).entropyIndex = s.entropyIndex := rfl
@[simp] theorem State.setRedraw_strides (r : Option Redraw) : (s.setRedraw r).strides = s.strides := rfl

/-! `State.resetEvent` -/

@[simp] theorem State.resetEvent_sm : (s.resetEvent).sm = none := rfl
@[simp] theorem State.resetEvent_xo : (s.resetEvent).xo = none := rfl
@[simp] theorem State.resetEvent_xs : (s.resetEvent).xs = none := rfl
@[simp] theorem State.resetEvent_inbox : (s.resetEvent).inbox = s.inbox := rfl
@[simp] theorem State.resetEvent_outbox : (s.resetEvent).outbox = s.outbox := rfl
@[simp] theorem State.resetEvent_redraw : (s.resetEvent).redraw = s.redraw := rfl
@[simp] theorem State.resetEvent_entropy : (s.resetEvent).entropy = s.entropy := rfl
@[simp] theorem State.resetEvent_entropyIndex : (s.resetEvent).entropyIndex = s.entropyIndex := rfl
@[simp] theorem State.resetEvent_strides : (s.resetEvent).strides = s.strides := rfl

/-! The valid bits (10_state.md rule R24) -/

theorem State.smValid_eq : s.smValid = s.sm.isSome := rfl
theorem State.xoValid_eq : s.xoValid = s.xo.isSome := rfl
theorem State.xsValid_eq : s.xsValid = s.xs.isSome := rfl

end Sys2Proof.Machine
end

