-- ==== Sys2Proof/Laws/Ops.lean ====
section
/-! SUPPORT. For each shared operation, one lemma that says everything it can do, so that a proof
cites it and does not unfold the operation. -/

namespace Sys2Proof.Machine

/-! ## The forbidden states -/

theorem Xo.isZero_iff (e : Xo) : e.isZero = true ↔ e.s0 = 0 ∧ e.s1 = 0 := by
  simp [Xo.isZero]

theorem Xs.isZero_iff (e : Xs) : e.isZero = true ↔ ∀ w ∈ e.s.toList, w = 0 := by
  simp only [Xs.isZero, List.all_eq_true, beq_iff_eq]

/-- The forbidden state of X1024, as an array of words. -/
theorem Xs.isZero_iff_words (e : Xs) : e.isZero = true ↔ e.s = words16 fun _ => 0 := by
  rw [Xs.isZero_iff]
  constructor
  · intro h
    refine Laws.words_ext _ _ fun i => ?_
    rw [Laws.words16_get]
    exact h _ (Vector.mem_toList_iff.mpr (Vector.getElem_mem _))
  · intro h w hw
    rw [h] at hw
    obtain ⟨i, hi, rfl⟩ := List.mem_iff_getElem.mp hw
    have hi' : i < 16 := by simpa using hi
    have := Laws.words16_get (fun _ => 0) (BitVec.ofNat 4 i)
    have hn : (BitVec.ofNat 4 i).toNat = i := by rw [BitVec.toNat_ofNat]; omega
    simpa only [hn, Vector.getElem_toList] using this

/-! ## Entropy -/

/-- A draw answers with an answer of the source, and changes only the two entropy fields (R212). -/
theorem State.entDraw_eq (n : Nat) (s : State) : ∃ a rest k,
    s.entDraw n = (EntAnswer.take n a, { s with entropy := rest, entropyIndex := k }) ∧
    ((s.entropy = a :: rest ∧ k = s.entropyIndex) ∨
      (s.entropy = [] ∧ a = Config.entropyAnswer s.entropyIndex ∧ rest = [] ∧
        k = s.entropyIndex + 1)) := by
  cases h : s.entropy with
  | nil =>
    exact ⟨Config.entropyAnswer s.entropyIndex, [], s.entropyIndex + 1, by
      unfold State.entDraw
      rw [h], .inr ⟨rfl, rfl, rfl, rfl⟩⟩
  | cons a rest =>
    exact ⟨a, rest, s.entropyIndex, by unfold State.entDraw; rw [h], .inl ⟨rfl, rfl⟩⟩

variable (n : Nat) (s : State)

@[simp] theorem State.entDraw_sm : (s.entDraw n).2.sm = s.sm := by
  unfold State.entDraw; split <;> rfl
@[simp] theorem State.entDraw_xo : (s.entDraw n).2.xo = s.xo := by
  unfold State.entDraw; split <;> rfl
@[simp] theorem State.entDraw_xs : (s.entDraw n).2.xs = s.xs := by
  unfold State.entDraw; split <;> rfl
@[simp] theorem State.entDraw_inbox : (s.entDraw n).2.inbox = s.inbox := by
  unfold State.entDraw; split <;> rfl
@[simp] theorem State.entDraw_outbox : (s.entDraw n).2.outbox = s.outbox := by
  unfold State.entDraw; split <;> rfl
@[simp] theorem State.entDraw_strides : (s.entDraw n).2.strides = s.strides := by
  unfold State.entDraw; split <;> rfl
@[simp] theorem State.entDraw_redraw : (s.entDraw n).2.redraw = s.redraw := by
  unfold State.entDraw; split <;> rfl

/-! ## Seeding -/

theorem State.seedXo_cases (e : Xo) :
    (e.isZero = true ∧ s.seedXo e = s.raise .invalidSeed) ∨
    (e.isZero = false ∧ s.seedXo e = (s.setXo e).respond .done) := by
  by_cases h : e.isZero = true
  · exact .inl ⟨h, if_pos h⟩
  · exact .inr ⟨Bool.eq_false_of_not_eq_true h, if_neg h⟩

theorem State.seedXs_cases (ws : Vector Word 16) :
    ((Xs.mk ws 0).isZero = true ∧ s.seedXs ws = s.raise .invalidSeed) ∨
    ((Xs.mk ws 0).isZero = false ∧ s.seedXs ws = (s.setXs ⟨ws, 0⟩).respond .done) := by
  by_cases h : (Xs.mk ws 0).isZero = true
  · exact .inl ⟨h, if_pos h⟩
  · exact .inr ⟨Bool.eq_false_of_not_eq_true h, if_neg h⟩

theorem State.seedXoFrom_cases (a : Option (List Byte)) :
    (a = none ∧ s.seedXoFrom a = (s.setRedraw none).raise .entropySourceUnavailable) ∨
    (∃ b, a = some b ∧ (Xo.mk (seedWord b 0) (seedWord b 1)).isZero = true ∧
      s.seedXoFrom a = s.setRedraw (some .x128)) ∨
    (∃ b, a = some b ∧ (Xo.mk (seedWord b 0) (seedWord b 1)).isZero = false ∧
      s.seedXoFrom a =
        ((s.setRedraw none).setXo ⟨seedWord b 0, seedWord b 1⟩).respond .done) := by
  cases a with
  | none => exact .inl ⟨rfl, rfl⟩
  | some b =>
    by_cases h : (Xo.mk (seedWord b 0) (seedWord b 1)).isZero = true
    · exact .inr (.inl ⟨b, rfl, h, if_pos h⟩)
    · exact .inr (.inr ⟨b, rfl, Bool.eq_false_of_not_eq_true h, if_neg h⟩)

theorem State.seedXsFrom_cases (a : Option (List Byte)) :
    (a = none ∧ s.seedXsFrom a = (s.setRedraw none).raise .entropySourceUnavailable) ∨
    (∃ b, a = some b ∧ (Xs.mk (seedWords16 b) 0).isZero = true ∧
      s.seedXsFrom a = s.setRedraw (some .x1024)) ∨
    (∃ b, a = some b ∧ (Xs.mk (seedWords16 b) 0).isZero = false ∧
      s.seedXsFrom a = ((s.setRedraw none).setXs ⟨seedWords16 b, 0⟩).respond .done) := by
  cases a with
  | none => exact .inl ⟨rfl, rfl⟩
  | some b =>
    by_cases h : (Xs.mk (seedWords16 b) 0).isZero = true
    · exact .inr (.inl ⟨b, rfl, h, if_pos h⟩)
    · exact .inr (.inr ⟨b, rfl, Bool.eq_false_of_not_eq_true h, if_neg h⟩)

/-- The words of an expansion, one by one (41_splitmix64.md rule R109). -/
theorem expand_getD (m : Nat) (v : Word) (i : Nat) (h : i < m) :
    (expand v m).getD i 0 = mix64 (v + BitVec.ofNat 64 (i + 1) * gamma) := by
  induction m generalizing v i with
  | zero => omega
  | succ m ih =>
    cases i with
    | zero =>
      have hg : v + gamma = v + BitVec.ofNat 64 (0 + 1) * gamma :=
        congrArg (v + ·) (BitVec.one_mul gamma).symm
      rw [← hg]
      rfl
    | succ i =>
      have hg : v + gamma + BitVec.ofNat 64 (i + 1) * gamma =
          v + BitVec.ofNat 64 (i + 1 + 1) * gamma := by
        have h1 : BitVec.ofNat 64 (i + 1 + 1) = BitVec.ofNat 64 1 + BitVec.ofNat 64 (i + 1) := by
          rw [Nat.add_comm (i + 1) 1]; exact BitVec.ofNat_add 1 (i + 1)
        have h2 : BitVec.ofNat 64 1 * gamma = gamma := BitVec.one_mul gamma
        rw [h1, BitVec.add_mul, h2, BitVec.add_assoc]
      rw [← hg, ← ih (v + gamma) i (by omega)]
      exact List.getD_cons_succ

/-! ## The generic contract, for an engine that holds words and for one that does not -/

variable {E : Type} (draw : E → E × Word) (jump : E → E) (put : E → State)

theorem outNext64_none : outNext64 draw none put s = s.raise .notSeeded := rfl
theorem outNext64_some (c : E) :
    outNext64 draw (some c) put s = (put (draw c).1).respond (.word64 (draw c).2) := rfl
theorem outNext32_none : outNext32 draw none put s = s.raise .notSeeded := rfl
theorem outNext32_some (c : E) :
    outNext32 draw (some c) put s = (put (draw c).1).respond (.word32 (lo32 (draw c).2)) := rfl
theorem outFill_none : outFill draw n none put s = s.raise .notSeeded := rfl
theorem outFill_some (c : E) :
    outFill draw n (some c) put s = (put (fill draw n c).1).respond (.filled (fill draw n c).2) := rfl
theorem outJump_none : outJump jump none put s = s.raise .notSeeded := rfl
theorem outJump_some (c : E) : outJump jump (some c) put s = (put (jump c)).respond .done := rfl

/-! ## Steps and the fill loop -/

theorem steps_zero (c : E) : steps draw 0 c = c := rfl

theorem steps_succ (k : Nat) (c : E) : steps draw (k + 1) c = steps draw k (draw c).1 := rfl

theorem steps_add (j k : Nat) (c : E) : steps draw (j + k) c = steps draw k (steps draw j c) := by
  induction j generalizing c with
  | zero => rw [Nat.zero_add]; rfl
  | succ j ih => rw [Nat.succ_add, steps_succ, ih, steps_succ]

theorem fillLoop_state (k m : Nat) (c : E) : (fillLoop draw k m c).1 = steps draw k c := by
  induction k generalizing m c with
  | zero => rfl
  | succ k ih => exact ih _ _

theorem fillLoop_bytes (k m : Nat) (c : E) : (fillLoop draw (k + 1) m c).2 =
    (bytes64 (draw c).2).take (min 8 m) ++ (fillLoop draw k (m - 8) (draw c).1).2 := rfl

/-! ## What a response looks like -/

theorem bytes64_length (w : Word) : (bytes64 w).length = 8 := rfl

theorem bytes32_length (v : BitVec 32) : (bytes32 v).length = 4 := rfl

end Sys2Proof.Machine
end

