-- ==== Sys2Proof/Laws/Exec.lean ====
section
/-! SUPPORT. What `exec` and `step` are, arm by arm, in the named operations of Machine/Ops.lean and
Machine/Contract.lean: rewriting with these, a proof never unfolds `exec`, a meaning or `step`. -/

namespace Sys2Proof.Machine

variable (s : State)

/-! ## Seeding -/

theorem exec_seedbSm64 (w : Word) : exec (.seedbSm64 w) s = .next ((s.setSm ⟨w⟩).respond .done) := rfl
theorem exec_seediSm64 (v : Word) : exec (.seediSm64 v) s = .next ((s.setSm ⟨v⟩).respond .done) := rfl
theorem exec_seedbX128 (w0 w1 : Word) : exec (.seedbX128 w0 w1) s = .next (s.seedXo ⟨w0, w1⟩) := rfl
theorem exec_seediX128 (v : Word) : exec (.seediX128 v) s =
    .next (s.seedXo ⟨mix64 (v + gamma), mix64 (v + gamma + gamma)⟩) := rfl
theorem exec_seeddX128 : exec .seeddX128 s = .next
    ((s.setXo ⟨Config.unseededX128.1, Config.unseededX128.2⟩).respond .done) := rfl
theorem exec_seedbX1024 (ws : Vector Word 16) :
    exec (.seedbX1024 ws) s = .next (s.seedXs ws) := rfl
theorem exec_seediX1024 (v : Word) : exec (.seediX1024 v) s =
    .next (s.seedXs (words16 fun i => (expand v 16).getD i.toNat 0)) := rfl

/-- SEEDE.SM64, by the answer of its draw (R105). -/
theorem exec_seedeSm64 : ∀ (t : State) (a : Option (List Byte)), s.entDraw 8 = (a, t) →
    exec .seedeSm64 s = .next (match a with
      | none => t.raise .entropySourceUnavailable
      | some b => (t.setSm ⟨le64 b⟩).respond .done) := by
  intro t a h
  show Host.Outcome.next (match (s.entDraw 8).1 with
    | none => (s.entDraw 8).2.raise .entropySourceUnavailable
    | some b => (s.entDraw 8).2.seedSm (le64 b)) = _
  rw [h]
  cases a <;> rfl

theorem exec_seedeX128 : exec .seedeX128 s =
    .next ((s.entDraw 16).2.seedXoFrom (s.entDraw 16).1) := rfl
theorem exec_seedeX1024 : exec .seedeX1024 s =
    .next ((s.entDraw 128).2.seedXsFrom (s.entDraw 128).1) := rfl

/-! ## The contract -/

theorem exec_next64Sm64 : exec .next64Sm64 s = .next (outNext64 Sm.draw s.sm s.setSm s) := rfl
theorem exec_next64X128 : exec .next64X128 s = .next (outNext64 Xo.draw s.xo s.setXo s) := rfl
theorem exec_next64X1024 : exec .next64X1024 s = .next (outNext64 Xs.draw s.xs s.setXs s) := rfl
theorem exec_next32Sm64 : exec .next32Sm64 s = .next (outNext32 Sm.draw s.sm s.setSm s) := rfl
theorem exec_next32X128 : exec .next32X128 s = .next (outNext32 Xo.draw s.xo s.setXo s) := rfl
theorem exec_next32X1024 : exec .next32X1024 s = .next (outNext32 Xs.draw s.xs s.setXs s) := rfl
theorem exec_fillSm64 (len : BitVec 24) :
    exec (.fillSm64 len) s = .next (outFill Sm.draw len.toNat s.sm s.setSm s) := rfl
theorem exec_fillX128 (len : BitVec 24) :
    exec (.fillX128 len) s = .next (outFill Xo.draw len.toNat s.xo s.setXo s) := rfl
theorem exec_fillX1024 (len : BitVec 24) :
    exec (.fillX1024 len) s = .next (outFill Xs.draw len.toNat s.xs s.setXs s) := rfl
theorem exec_jumpSm64 :
    exec .jumpSm64 s = .next (outJump (Sm.jump s.strides.sm64) s.sm s.setSm s) := rfl
theorem exec_jumpX128 :
    exec .jumpX128 s = .next (outJump (Xo.jump s.strides.x128) s.xo s.setXo s) := rfl
theorem exec_jumpX1024 :
    exec .jumpX1024 s = .next (outJump (Xs.jump s.strides.x1024) s.xs s.setXs s) := rfl

/-! ## Taking the next thing to do -/

theorem State.fetch_idle (hr : s.redraw = none) (hi : s.inbox = []) : s.fetch = (.idle, s) := by
  unfold State.fetch; rw [hr, hi]

theorem State.fetch_reset (rest : List HostInput) (hr : s.redraw = none)
    (hi : s.inbox = .reset :: rest) : s.fetch = (.reset, { s with inbox := rest }) := by
  unfold State.fetch; rw [hr, hi]

theorem State.fetch_frame (f : Frame) (rest : List HostInput) (hr : s.redraw = none)
    (hi : s.inbox = .frame f :: rest) : s.fetch = (workOf f, { s with inbox := rest }) := by
  unfold State.fetch; rw [hr, hi]

theorem State.fetch_x128 (hr : s.redraw = some .x128) : s.fetch = (.run .seedeX128, s) := by
  unfold State.fetch; rw [hr]

theorem State.fetch_x1024 (hr : s.redraw = some .x1024) : s.fetch = (.run .seedeX1024, s) := by
  unfold State.fetch; rw [hr]

theorem workOf_command (f : Frame) (i : Instr) (h : decode f = .command i) : workOf f = .run i := by
  unfold workOf; rw [h]

theorem workOf_illegal (f : Frame) (why : Illegal) (h : decode f = .illegal why) :
    workOf f = .illegal := by
  unfold workOf; rw [h]

/-- Everything a step can do. -/
theorem step_of_fetch : ∀ (t : State) (w : Work), s.fetch = (w, t) → step s =
    match w with
    | .idle => .next t
    | .reset => .next t.resetEvent
    | .illegal => .next (t.raise .illegalCommand)
    | .run i => exec i t := by
  intro t w h
  unfold step; rw [h]; cases w <;> rfl

end Sys2Proof.Machine
end

