-- ==== Sys2Proof/Laws/Gf2.lean ====
section
/-! SUPPORT. Polynomials over GF(2), as numbers, applied to a linear step: why the polynomial method of
44_contract_fill_jump.md rules R175 and R176 computes an iterated step (rule R170).

`Gf2` is a sum over GF(2), `evalPoly n r v` is the sum of `T^k v` over the bits `k < n` of `r`. Once a
polynomial `P` of degree `d` annihilates the step (`evalPoly (d + 1) P v = 0` for every `v`),
`evalPoly_polyPow` says that `polyPow` computes the iterated step. -/

namespace Sys2Proof.Laws

/-- A sum over GF(2): commutative, associative, and every element is its own negative. -/
structure Gf2 (V : Type) where
  zero : V
  add : V → V → V
  add_assoc : ∀ a b c, add (add a b) c = add a (add b c)
  add_comm : ∀ a b, add a b = add b a
  zero_add : ∀ a, add zero a = a
  add_self : ∀ a, add a a = zero

namespace Gf2

variable {V : Type} (G : Gf2 V)

theorem add_zero (a : V) : G.add a G.zero = a := by rw [G.add_comm, G.zero_add]

theorem add_left_comm (a b c : V) : G.add a (G.add b c) = G.add b (G.add a c) := by
  rw [← G.add_assoc, G.add_comm a b, G.add_assoc]

theorem add_cancel (a b : V) : G.add a (G.add a b) = b := by
  rw [← G.add_assoc, G.add_self, G.zero_add]

/-- The term of a bit: `v` where it is 1, zero where it is 0. -/
def bitTerm (b : Nat) (v : V) : V := if b % 2 = 1 then v else G.zero

/-- The sum of `T^k v` over the bits `k < n` of `r`. -/
def evalPoly (T : V → V) : Nat → Nat → V → V
  | 0, _, _ => G.zero
  | n + 1, r, v => G.add (G.bitTerm r v) (evalPoly T n (r / 2) (T v))

/-- A step that keeps sums. -/
def Additive (T : V → V) : Prop := ∀ a b, T (G.add a b) = G.add (T a) (T b)

variable {G} {T : V → V}

theorem Additive.zero (hT : G.Additive T) : T G.zero = G.zero := by
  have h := hT G.zero G.zero
  rw [G.zero_add] at h
  rw [h, G.add_self]

theorem bitTerm_add (b : Nat) (v w : V) :
    G.bitTerm b (G.add v w) = G.add (G.bitTerm b v) (G.bitTerm b w) := by
  unfold bitTerm; split
  · rfl
  · rw [G.zero_add]

theorem bitTerm_xor (a b : Nat) (v : V) :
    G.bitTerm (a ^^^ b) v = G.add (G.bitTerm a v) (G.bitTerm b v) := by
  have h : (a ^^^ b) % 2 = (a + b) % 2 := by
    exact Nat.xor_mod_two_eq
  unfold bitTerm
  rw [h]
  rcases Nat.mod_two_eq_zero_or_one a with ha | ha <;>
    rcases Nat.mod_two_eq_zero_or_one b with hb | hb <;>
    simp [Nat.add_mod, ha, hb, G.zero_add, G.add_zero, G.add_self]

theorem evalPoly_add (hT : G.Additive T) (n r : Nat) (v w : V) :
    G.evalPoly T n r (G.add v w) = G.add (G.evalPoly T n r v) (G.evalPoly T n r w) := by
  induction n generalizing r v w with
  | zero => exact (G.zero_add _).symm
  | succ n ih =>
    simp only [evalPoly]
    rw [bitTerm_add, hT, ih]
    simp only [G.add_assoc, G.add_left_comm (G.bitTerm r w)]

theorem evalPoly_zero (hT : G.Additive T) (n r : Nat) : G.evalPoly T n r G.zero = G.zero := by
  induction n generalizing r with
  | zero => rfl
  | succ n ih => simp [evalPoly, bitTerm, hT.zero, ih, G.zero_add]

theorem evalPoly_xor (n r q : Nat) (v : V) :
    G.evalPoly T n (r ^^^ q) v = G.add (G.evalPoly T n r v) (G.evalPoly T n q v) := by
  induction n generalizing r q v with
  | zero => exact (G.zero_add _).symm
  | succ n ih =>
    simp only [evalPoly]
    have h : (r ^^^ q) / 2 = r / 2 ^^^ q / 2 := by
      simpa [Nat.shiftRight_eq_div_pow] using Nat.shiftRight_xor_distrib (a := r) (b := q) (i := 1)
    rw [bitTerm_xor, h, ih]
    simp only [G.add_assoc, G.add_left_comm (G.bitTerm q v)]

/-- Applying the step first or last is the same. -/
theorem evalPoly_step (hT : G.Additive T) (n r : Nat) (v : V) :
    G.evalPoly T n r (T v) = T (G.evalPoly T n r v) := by
  induction n generalizing r v with
  | zero => exact hT.zero.symm
  | succ n ih =>
    simp only [evalPoly]
    rw [ih, hT]
    congr 1
    unfold bitTerm; split
    · rfl
    · exact hT.zero.symm

/-- Multiplying by `x` is one step. -/
theorem evalPoly_double (n r : Nat) (v : V) :
    G.evalPoly T (n + 1) (2 * r) v = G.evalPoly T n r (T v) := by
  simp [evalPoly, bitTerm, G.zero_add]

theorem evalPoly_zero_poly (n : Nat) (v : V) : G.evalPoly T n 0 v = G.zero := by
  induction n generalizing v with
  | zero => rfl
  | succ n ih => simp [evalPoly, bitTerm, ih, G.zero_add]

/-- Bits above the polynomial's length add nothing. -/
theorem evalPoly_succ (n r : Nat) (v : V) (h : r < 2 ^ n) :
    G.evalPoly T (n + 1) r v = G.evalPoly T n r v := by
  induction n generalizing r v with
  | zero =>
    have : r = 0 := by omega
    subst this
    simp [evalPoly, bitTerm, G.zero_add]
  | succ n ih =>
    have h2 : r / 2 < 2 ^ n := by rw [Nat.pow_succ] at h; omega
    rw [evalPoly, ih _ _ h2, evalPoly]

theorem evalPoly_one (n : Nat) (v : V) : G.evalPoly T (n + 1) 1 v = v := by
  simp [evalPoly, bitTerm, evalPoly_zero_poly, G.add_zero]

section modulo

variable {d P : Nat}

/-- `P` has degree `d`. -/
def HasDegree (d P : Nat) : Prop := 2 ^ d ≤ P ∧ P < 2 ^ (d + 1)

/-- `P` annihilates the step. -/
def Annihilates (G : Gf2 V) (T : V → V) (d P : Nat) : Prop :=
  ∀ v, G.evalPoly T (d + 1) P v = G.zero

theorem polyTimesX_lt (hd : 0 < d) (hP : HasDegree d P) (r : Nat) (hr : r < 2 ^ d) :
    Machine.polyTimesX d P r < 2 ^ d := by
  obtain ⟨e, rfl⟩ : ∃ e, d = e + 1 := ⟨d - 1, by omega⟩
  unfold Machine.polyTimesX
  simp only [Nat.add_sub_cancel]
  obtain ⟨hP1, hP2⟩ := hP
  split
  · rename_i hb
    have htop : ∀ (x : Nat), x < 2 ^ (e + 1 + 1) → 2 ^ (e + 1) ≤ x → x.testBit (e + 1) = true := by
      intro x h1 h2
      rw [Nat.testBit_eq_decide_div_mod_eq]
      have : x / 2 ^ (e + 1) = 1 := by
        rw [Nat.div_eq_iff (by positivity)]
        rw [Nat.pow_succ] at h1
        omega
      simp [this]
    have h2r : 2 * r < 2 ^ (e + 1 + 1) := by rw [Nat.pow_succ 2 (e + 1)]; omega
    have h2r' : 2 ^ (e + 1) ≤ 2 * r := by
      have := Nat.ge_two_pow_of_testBit hb
      rw [Nat.pow_succ]; omega
    apply Nat.lt_pow_two_of_testBit
    intro i hi
    rw [Nat.testBit_xor]
    rcases Nat.lt_or_eq_of_le hi with hlt | heq
    · have e1 : (2 * r).testBit i = false := Nat.testBit_lt_two_pow
        (Nat.lt_of_lt_of_le h2r (Nat.pow_le_pow_right (by decide) hlt))
      have e2 : P.testBit i = false := Nat.testBit_lt_two_pow
        (Nat.lt_of_lt_of_le hP2 (Nat.pow_le_pow_right (by decide) hlt))
      rw [e1, e2]; rfl
    · subst heq
      rw [htop _ h2r h2r', htop _ hP2 hP1]; rfl
  · rename_i hb
    have : r < 2 ^ e := by
      by_contra hc
      apply hb
      rw [Nat.testBit_eq_decide_div_mod_eq]
      have : r / 2 ^ e = 1 := by
        rw [Nat.div_eq_iff (by positivity)]
        rw [Nat.pow_succ] at hr
        omega
      simp [this]
    rw [Nat.pow_succ]; omega

/-- `polyTimesX` is one step. -/
theorem evalPoly_polyTimesX (hA : Annihilates G T d P) (r : Nat)
    (hd : 0 < d) (hP : HasDegree d P) (hr : r < 2 ^ d) (v : V) :
    G.evalPoly T d (Machine.polyTimesX d P r) v = G.evalPoly T d r (T v) := by
  rw [← evalPoly_succ _ _ _ (polyTimesX_lt hd hP r hr)]
  unfold Machine.polyTimesX
  split
  · rw [evalPoly_xor, hA v, G.add_zero, evalPoly_double]
  · exact evalPoly_double _ _ _

theorem polyMulAdd_lt (hd : 0 < d) (hP : HasDegree d P) (n a b acc : Nat)
    (hb : b < 2 ^ d) (hacc : acc < 2 ^ d) : Machine.polyMulAdd d P n a b acc < 2 ^ d := by
  induction n generalizing a b acc with
  | zero => exact hacc
  | succ n ih =>
    apply ih _ _ _ (polyTimesX_lt hd hP b hb)
    split
    · exact Nat.xor_lt_two_pow hacc hb
    · exact hacc

/-- `polyMulAdd` adds the product's action. -/
theorem evalPoly_polyMulAdd (hT : G.Additive T) (hA : Annihilates G T d P) (hd : 0 < d)
    (hP : HasDegree d P) (n a b acc : Nat) (hb : b < 2 ^ d) (hacc : acc < 2 ^ d) (v : V) :
    G.evalPoly T d (Machine.polyMulAdd d P n a b acc) v =
      G.add (G.evalPoly T d acc v) (G.evalPoly T n a (G.evalPoly T d b v)) := by
  induction n generalizing a b acc with
  | zero => exact (G.add_zero _).symm
  | succ n ih =>
    have hacc' : (if a % 2 = 1 then acc ^^^ b else acc) < 2 ^ d := by
      split
      · exact Nat.xor_lt_two_pow hacc hb
      · exact hacc
    rw [Machine.polyMulAdd, ih _ _ _ (polyTimesX_lt hd hP b hb) hacc',
      evalPoly_polyTimesX hA b hd hP hb, evalPoly_step hT, evalPoly]
    unfold bitTerm
    split
    · rw [evalPoly_xor, G.add_assoc]
    · rw [G.zero_add]

/-- `polyMul` composes the actions. -/
theorem evalPoly_polyMul (hT : G.Additive T) (hA : Annihilates G T d P) (hd : 0 < d)
    (hP : HasDegree d P) (a b : Nat) (hb : b < 2 ^ d) (v : V) :
    G.evalPoly T d (Machine.polyMul d P a b) v = G.evalPoly T d a (G.evalPoly T d b v) := by
  rw [Machine.polyMul, evalPoly_polyMulAdd hT hA hd hP _ _ _ _ hb (by positivity),
    evalPoly_zero_poly, G.zero_add]

theorem polyPow_lt (hd : 0 < d) (hP : HasDegree d P) (n J : Nat) :
    Machine.polyPow d P n J < 2 ^ d := by
  induction n generalizing J with
  | zero => exact Nat.one_lt_two_pow (by omega)
  | succ n ih =>
    have hq : Machine.polyMul d P (Machine.polyPow d P n (J / 2)) (Machine.polyPow d P n (J / 2)) <
        2 ^ d := polyMulAdd_lt hd hP _ _ _ _ (ih _) (by positivity)
    simp only [Machine.polyPow]
    split
    · exact polyTimesX_lt hd hP _ hq
    · exact hq

/-- `polyPow` is the iterated step, for every stride. -/
theorem evalPoly_polyPow (hT : G.Additive T) (hA : Annihilates G T d P) (hd : 0 < d)
    (hP : HasDegree d P) (n J : Nat) (hJ : J < 2 ^ n) (v : V) :
    G.evalPoly T d (Machine.polyPow d P n J) v = T^[J] v := by
  induction n generalizing J v with
  | zero =>
    obtain ⟨e, rfl⟩ : ∃ e, d = e + 1 := ⟨d - 1, by omega⟩
    have : J = 0 := by omega
    subst this
    exact evalPoly_one _ _
  | succ n ih =>
    have hJ2 : J / 2 < 2 ^ n := by rw [Nat.pow_succ] at hJ; omega
    have hmul : Machine.polyMul d P (Machine.polyPow d P n (J / 2)) (Machine.polyPow d P n (J / 2)) <
        2 ^ d := polyMulAdd_lt hd hP _ _ _ _ (polyPow_lt hd hP _ _) (by positivity)
    have hq : ∀ w, G.evalPoly T d (Machine.polyMul d P (Machine.polyPow d P n (J / 2))
        (Machine.polyPow d P n (J / 2))) w = T^[2 * (J / 2)] w := by
      intro w
      rw [evalPoly_polyMul hT hA hd hP _ _ (polyPow_lt hd hP _ _), ih _ hJ2, ih _ hJ2,
        ← Function.iterate_add_apply]
      congr 1
      omega
    simp only [Machine.polyPow]
    split
    · rename_i hodd
      rw [evalPoly_polyTimesX hA _ hd hP (hmul), hq, ← Function.iterate_succ_apply]
      congr 1
      omega
    · rename_i heven
      rw [hq]
      congr 1
      omega

end modulo

end Gf2

end Sys2Proof.Laws
end

