-- ==== Sys2Proof/Laws/JumpX128.lean ====
section
/-! SUPPORT. The polynomial of 44_contract_fill_jump.md rule R175 annihilates the step of X128, and its
default jump polynomial is the power that square-and-reduce computes; hence the polynomial of a
stride acts as that many steps. -/

namespace Sys2Proof.Laws

-- one theorem at a time: the kernel evaluations below would each hold a thread while they wait
set_option Elab.async false

open Machine

/-- `steps` is iteration of the state part of the draw. -/
theorem steps_eq_iterate {E : Type} (draw : E → E × Word) (n : Nat) (e : E) :
    steps draw n e = (fun c => (draw c).1)^[n] e := by
  induction n generalizing e with
  | zero => rfl
  | succ n ih => rw [steps, ih, Function.iterate_succ_apply]

/-- What a step on single words sends to zero at the powers of two, it sends to zero everywhere. -/
theorem additive_word_zero {V : Type} (G : Gf2 V) (g : Word → V)
    (hadd : ∀ a b, g (a ^^^ b) = G.add (g a) (g b))
    (hbit : ∀ i, i < 64 → g (BitVec.ofNat 64 (2 ^ i)) = G.zero) (a : Word) : g a = G.zero := by
  have h0 : g 0 = G.zero := by
    have h := hadd 0 0
    rw [BitVec.xor_self] at h
    rw [show (0#64 : Word) = 0 from rfl] at h
    rw [h, G.add_self]
  have key : ∀ n, n ≤ 64 → ∀ a : Word, a.toNat < 2 ^ n → g a = G.zero := by
    intro n
    induction n with
    | zero =>
      intro _ a ha
      have : a = 0 := by apply BitVec.eq_of_toNat_eq; simpa using ha
      rw [this, h0]
    | succ n ih =>
      intro hn a ha
      by_cases hlt : a.toNat < 2 ^ n
      · exact ih (by omega) a hlt
      · have hsplit : a = (a ^^^ BitVec.ofNat 64 (2 ^ n)) ^^^ BitVec.ofNat 64 (2 ^ n) := by
          rw [BitVec.xor_assoc, BitVec.xor_self, BitVec.xor_zero]
        have hsmall : (a ^^^ BitVec.ofNat 64 (2 ^ n)).toNat < 2 ^ n := by
          rw [BitVec.toNat_xor, BitVec.toNat_ofNat]
          have hp : 2 ^ n % 2 ^ 64 = 2 ^ n :=
            Nat.mod_eq_of_lt (Nat.pow_lt_pow_right (by decide) (by omega))
          rw [hp]
          apply Nat.lt_pow_two_of_testBit
          intro i hi
          rw [Nat.testBit_xor]
          rcases Nat.lt_or_eq_of_le hi with h | h
          · have e1 : a.toNat.testBit i = false := Nat.testBit_lt_two_pow
              (Nat.lt_of_lt_of_le ha (Nat.pow_le_pow_right (by decide) h))
            have e2 : (2 ^ n).testBit i = false := Nat.testBit_lt_two_pow
              (Nat.pow_lt_pow_right (by decide) h)
            rw [e1, e2]; rfl
          · subst h
            have e1 : a.toNat.testBit n = true := by
              rw [Nat.testBit_eq_decide_div_mod_eq]
              have : a.toNat / 2 ^ n = 1 := by
                rw [Nat.div_eq_iff (by positivity)]
                rw [Nat.pow_succ] at ha
                omega
              simp [this]
            rw [e1, Nat.testBit_two_pow_self]; rfl
        rw [hsplit, hadd, ih (by omega) _ hsmall, hbit n (by omega), G.zero_add]
  exact key 64 (Nat.le_refl _) a a.isLt

/-- Pairs of words with the bitwise sum (R175: "128-bit vectors"). -/
def xoGf2 : Gf2 Xo where
  zero := ⟨0, 0⟩
  add := Xo.xor
  add_assoc a b c := by simp [Xo.xor, BitVec.xor_assoc]
  add_comm a b := by simp [Xo.xor, BitVec.xor_comm]
  zero_add a := by simp [Xo.xor]
  add_self a := by simp [Xo.xor]

/-- The state update `T` of `XoStep` (R175). -/
def xoStep (e : Xo) : Xo := e.draw.1

theorem xor_swap (a b c d : Word) : (a ^^^ b) ^^^ (c ^^^ d) = (a ^^^ c) ^^^ (b ^^^ d) := by
  rw [BitVec.xor_assoc, ← BitVec.xor_assoc b, BitVec.xor_comm b c, BitVec.xor_assoc c,
    BitVec.xor_assoc]

theorem xor_swap3 (a b c d e f : Word) :
    (a ^^^ b) ^^^ (c ^^^ d) ^^^ (e ^^^ f) = (a ^^^ c ^^^ e) ^^^ (b ^^^ d ^^^ f) := by
  rw [xor_swap a b c d, xor_swap (a ^^^ c) (b ^^^ d) e f]

theorem rotateLeft_xor (a b : Word) (k : Nat) :
    (a ^^^ b).rotateLeft k = a.rotateLeft k ^^^ b.rotateLeft k := by
  ext i hi
  simp only [BitVec.getElem_xor, BitVec.getElem_rotateLeft]
  split <;> simp

/-- `T` is linear over GF(2) (R128 (a)). -/
theorem xoStep_additive : xoGf2.Additive xoStep := by
  intro a b
  have ht : (a.s1 ^^^ b.s1) ^^^ (a.s0 ^^^ b.s0) = (a.s1 ^^^ a.s0) ^^^ (b.s1 ^^^ b.s0) :=
    xor_swap _ _ _ _
  simp only [xoGf2, xoStep, Xo.draw, Xo.xor, ht, rotateLeft_xor, BitVec.shiftLeft_xor_distrib]
  rw [Xo.mk.injEq]
  exact ⟨xor_swap3 _ _ _ _ _ _, rfl⟩

/-- The loop of R175 is the sum of the steps named by the polynomial's bits. -/
theorem xo_applyPoly (n r : Nat) (c acc : Xo) :
    Xo.applyPoly n r c acc = xoGf2.add acc (xoGf2.evalPoly xoStep n r c) := by
  induction n generalizing r c acc with
  | zero => exact (xoGf2.add_zero _).symm
  | succ n ih =>
    rw [Xo.applyPoly, ih, Gf2.evalPoly, ← xoGf2.add_assoc]
    congr 1
    unfold Gf2.bitTerm
    split
    · rfl
    · exact (xoGf2.add_zero _).symm

theorem charPolyX128_degree : Gf2.HasDegree 128 charPolyX128 := by
  constructor <;> decide +kernel

/-- The characteristic polynomial sends every one-bit first word to zero. -/
theorem charPolyX128_bits :
    ∀ i, i < 64 → xoGf2.evalPoly xoStep 129 charPolyX128 ⟨BitVec.ofNat 64 (2 ^ i), 0⟩ = ⟨0, 0⟩ := by
  decide +kernel

theorem xo_annihilated_first (a : Word) :
    xoGf2.evalPoly xoStep 129 charPolyX128 ⟨a, 0⟩ = xoGf2.zero := by
  refine additive_word_zero xoGf2 (fun a => xoGf2.evalPoly xoStep 129 charPolyX128 ⟨a, 0⟩) ?_
    charPolyX128_bits a
  intro a b
  rw [← Gf2.evalPoly_add xoStep_additive]
  simp [xoGf2, Xo.xor]

/-- `P(T) = 0` for X128 (R175). -/
theorem charPolyX128_annihilates : Gf2.Annihilates xoGf2 xoStep 128 charPolyX128 := by
  intro v
  have hsecond : ∀ c : Word, xoGf2.evalPoly xoStep 129 charPolyX128 ⟨0, c⟩ = xoGf2.zero := by
    intro c
    have hc : (⟨0, c⟩ : Xo) = xoGf2.add (xoStep ⟨c.rotateRight 36, 0⟩)
        ⟨(xoStep ⟨c.rotateRight 36, 0⟩).s0, 0⟩ := by
      have hr : (c.rotateRight 36).rotateLeft 36 = c := by
        ext i hi
        simp only [BitVec.getElem_rotateLeft, BitVec.getElem_rotateRight]
        split <;> split <;> (congr 1; omega)
      simp [xoGf2, Xo.xor, xoStep, Xo.draw, hr]
    rw [hc, Gf2.evalPoly_add xoStep_additive, Gf2.evalPoly_step xoStep_additive,
      xo_annihilated_first, xo_annihilated_first, xoStep_additive.zero, xoGf2.zero_add]
  have hv : v = xoGf2.add ⟨v.s0, 0⟩ ⟨0, v.s1⟩ := by simp [xoGf2, Xo.xor]
  rw [hv, Gf2.evalPoly_add xoStep_additive, xo_annihilated_first, hsecond, xoGf2.zero_add]

/-- The words `JP` of R175 are `x^(2^64) mod P`. -/
theorem jumpPolyX128Default_eq : jumpPolyX128Default = polyPow 128 charPolyX128 65 (2 ^ 64) := by
  decide +kernel

/-- The jump polynomial of every stride acts as that many steps. -/
theorem jumpPolyX128_acts (J : Nat) (v : Xo) :
    xoGf2.evalPoly xoStep 128 (jumpPolyX128 J) v = xoStep^[J] v := by
  unfold jumpPolyX128
  split
  · rename_i h
    subst h
    rw [jumpPolyX128Default_eq]
    exact Gf2.evalPoly_polyPow xoStep_additive charPolyX128_annihilates (by decide)
      charPolyX128_degree _ _ (by decide) v
  · exact Gf2.evalPoly_polyPow xoStep_additive charPolyX128_annihilates (by decide)
      charPolyX128_degree _ _ Nat.lt_log2_self v

end Sys2Proof.Laws
end

