-- ==== Sys2Proof/Laws/Spaced.lean ====
section
/-! SUPPORT. Fast squaring modulo a polynomial over GF(2), for the kernel: the coefficients of a
polynomial are kept in slots of twelve bits, so that an integer product counts the terms of each
coefficient without a carry into the next slot, and the parity of a slot is the coefficient.
`squareCheck_acts` says that a chain of such squarings, checked by evaluation, gives the iterated
step. -/

namespace Sys2Proof.Laws

/-- Go on with the value of `n` (it is evaluated to a numeral first). -/
def force {α : Type} (n : Nat) (k : Nat → α) : α := Nat.rec (k 0) (fun m _ => k (Nat.succ m)) n

theorem force_eq {α : Type} (n : Nat) (k : Nat → α) : force n k = k n := by
  cases n <;> rfl

namespace Gf2

variable {V : Type} {G : Gf2 V} {T : V → V}

/-- The sum of `T^k v` over the slots `k < n` of `N` that are odd. -/
def evalSlots (G : Gf2 V) (T : V → V) : Nat → Nat → V → V
  | 0, _, _ => G.zero
  | n + 1, N, v => G.add (G.bitTerm N v) (evalSlots G T n (N / 4096) (T v))

/-- `N` has at most `n` slots, each at most `c`. -/
def SlotsLe (c : Nat) : Nat → Nat → Prop
  | 0, N => N = 0
  | n + 1, N => N % 4096 ≤ c ∧ SlotsLe c n (N / 4096)

theorem SlotsLe.mono {c c' n N : Nat} (hc : c ≤ c') (h : SlotsLe c n N) : SlotsLe c' n N := by
  induction n generalizing N with
  | zero => exact h
  | succ n ih => exact ⟨Nat.le_trans h.1 hc, ih h.2⟩

theorem SlotsLe.zero (c n : Nat) : SlotsLe c n 0 := by
  induction n with
  | zero => rfl
  | succ n ih => exact ⟨Nat.zero_le _, ih⟩

theorem SlotsLe.extend {c n N : Nat} (h : SlotsLe c n N) (k : Nat) : SlotsLe c (n + k) N := by
  induction n generalizing N with
  | zero => cases h; exact SlotsLe.zero _ _
  | succ n ih =>
    rw [Nat.add_right_comm]
    exact ⟨h.1, ih h.2⟩

theorem evalSlots_zero_num (n : Nat) (v : V) : evalSlots G T n 0 v = G.zero := by
  induction n generalizing v with
  | zero => rfl
  | succ n ih => simp [evalSlots, bitTerm, ih, G.zero_add]

theorem evalSlots_extend {c n N : Nat} (h : SlotsLe c n N) (k : Nat) (v : V) :
    evalSlots G T (n + k) N v = evalSlots G T n N v := by
  induction n generalizing N v with
  | zero => cases h; rw [evalSlots_zero_num, evalSlots_zero_num]
  | succ n ih =>
    rw [Nat.add_right_comm, evalSlots, evalSlots, ih h.2]

theorem bitTerm_plus (a b : Nat) (v : V) :
    G.bitTerm (a + b) v = G.add (G.bitTerm a v) (G.bitTerm b v) := by
  unfold bitTerm
  rcases Nat.mod_two_eq_zero_or_one a with ha | ha <;>
    rcases Nat.mod_two_eq_zero_or_one b with hb | hb <;>
    simp [Nat.add_mod, ha, hb, G.zero_add, G.add_zero, G.add_self]

theorem SlotsLe.add {c c' n X Y : Nat} (hc : c + c' < 4096) (hX : SlotsLe c n X)
    (hY : SlotsLe c' n Y) : SlotsLe (c + c') n (X + Y) := by
  induction n generalizing X Y with
  | zero => cases hX; cases hY; rfl
  | succ n ih =>
    have h1 := hX.1
    have h2 := hY.1
    have hdiv : (X + Y) / 4096 = X / 4096 + Y / 4096 := by omega
    refine ⟨by omega, ?_⟩
    rw [hdiv]
    exact ih hX.2 hY.2

theorem evalSlots_plus {c c' n X Y : Nat} (hc : c + c' < 4096) (hX : SlotsLe c n X)
    (hY : SlotsLe c' n Y) (v : V) :
    evalSlots G T n (X + Y) v = G.add (evalSlots G T n X v) (evalSlots G T n Y v) := by
  induction n generalizing X Y v with
  | zero => exact (G.zero_add _).symm
  | succ n ih =>
    have h1 := hX.1
    have h2 := hY.1
    have hdiv : (X + Y) / 4096 = X / 4096 + Y / 4096 := by omega
    rw [evalSlots, bitTerm_plus, hdiv, ih hX.2 hY.2, evalSlots, evalSlots]
    simp only [G.add_assoc, G.add_left_comm (G.bitTerm Y v)]

theorem SlotsLe.shift {c n N : Nat} (h : SlotsLe c n N) : SlotsLe c (n + 1) (4096 * N) := by
  refine ⟨by omega, ?_⟩
  rw [show 4096 * N / 4096 = N by omega]
  exact h

theorem evalSlots_shift (n N : Nat) (v : V) :
    evalSlots G T (n + 1) (4096 * N) v = evalSlots G T n N (T v) := by
  have h1 : 4096 * N / 4096 = N := by omega
  have h2 : 4096 * N % 2 = 0 := by omega
  simp [evalSlots, bitTerm, h1, h2, G.zero_add]

theorem evalSlots_step (hT : G.Additive T) (n N : Nat) (v : V) :
    evalSlots G T n N (T v) = T (evalSlots G T n N v) := by
  induction n generalizing N v with
  | zero => exact hT.zero.symm
  | succ n ih =>
    rw [evalSlots, evalSlots, ih, hT]
    congr 1
    unfold bitTerm; split
    · rfl
    · exact hT.zero.symm

theorem slots_mul_split (A B : Nat) : A * B = A % 4096 * B + 4096 * (A / 4096 * B) := by
  conv => lhs; rw [← Nat.mod_add_div A 4096]
  ring

theorem SlotsLe.mul {m n A B : Nat} (hm : m < 4096) (hA : SlotsLe 1 m A) (hB : SlotsLe 1 n B) :
    SlotsLe m (m + n) (A * B) := by
  induction m generalizing A with
  | zero => cases hA; rw [Nat.zero_mul]; exact SlotsLe.zero _ _
  | succ m ih =>
    have hlow : SlotsLe 1 (m + 1 + n) (A % 4096 * B) := by
      have := hA.1
      rcases (by omega : A % 4096 = 0 ∨ A % 4096 = 1) with h | h
      · rw [h, Nat.zero_mul]; exact SlotsLe.zero _ _
      · rw [h, Nat.one_mul, Nat.add_comm]; exact hB.extend _
    have hhigh : SlotsLe m (m + 1 + n) (4096 * (A / 4096 * B)) := by
      rw [Nat.add_right_comm]; exact (ih (by omega) hA.2).shift
    rw [slots_mul_split, Nat.add_comm m 1]
    rw [Nat.add_comm m 1] at hlow hhigh
    exact hlow.add (by omega) hhigh

/-- The product's action is the composition of the actions. -/
theorem evalSlots_mul (hT : G.Additive T) {m n A B : Nat} (hm : m < 4096) (hA : SlotsLe 1 m A)
    (hB : SlotsLe 1 n B) (v : V) :
    evalSlots G T (m + n) (A * B) v = evalSlots G T m A (evalSlots G T n B v) := by
  induction m generalizing A v with
  | zero => cases hA; rw [Nat.zero_mul]; exact evalSlots_zero_num _ _
  | succ m ih =>
    have h1 := hA.1
    have hlow : SlotsLe 1 (m + 1 + n) (A % 4096 * B) := by
      rcases (by omega : A % 4096 = 0 ∨ A % 4096 = 1) with h | h
      · rw [h, Nat.zero_mul]; exact SlotsLe.zero _ _
      · rw [h, Nat.one_mul, Nat.add_comm]; exact hB.extend _
    have hhigh : SlotsLe m (m + n + 1) (4096 * (A / 4096 * B)) :=
      (hA.2.mul (by omega) hB).shift
    rw [slots_mul_split, evalSlots_plus (by omega : 1 + m < 4096) hlow
      (by rw [Nat.add_right_comm]; exact hhigh)]
    rw [show evalSlots G T (m + 1 + n) (4096 * (A / 4096 * B)) v =
        evalSlots G T (m + n) (A / 4096 * B) (T v) by
      rw [Nat.add_right_comm, evalSlots_shift],
      ih (by omega) hA.2, evalSlots_step hT, evalSlots]
    congr 1
    have hpar : A % 2 = A % 4096 % 2 := by omega
    unfold bitTerm
    rw [hpar]
    rcases (by omega : A % 4096 = 0 ∨ A % 4096 = 1) with h | h
    · rw [h, Nat.zero_mul, evalSlots_zero_num]; rfl
    · rw [h, Nat.one_mul, Nat.add_comm, evalSlots_extend hB]; rfl

/-- One in every slot: `((4096 ^ n) - 1) / 4095`. -/
def slotOnes : Nat → Nat
  | 0 => 0
  | n + 1 => 1 + 4096 * slotOnes n

theorem slotOnes_land (n N : Nat) :
    (N &&& slotOnes (n + 1)) % 4096 = N % 2 ∧
      (N &&& slotOnes (n + 1)) / 4096 = N / 4096 &&& slotOnes n := by
  have e : (4096 : Nat) = 2 ^ 12 := by decide
  have hm : slotOnes (n + 1) % 2 ^ 12 = 1 := by rw [slotOnes]; omega
  have hd : slotOnes (n + 1) / 2 ^ 12 = slotOnes n := by rw [slotOnes]; omega
  rw [e]
  constructor
  · rw [Nat.and_mod_two_pow, hm, Nat.and_one_is_mod]
    omega
  · rw [← Nat.shiftRight_eq_div_pow, Nat.shiftRight_and_distrib, Nat.shiftRight_eq_div_pow,
      Nat.shiftRight_eq_div_pow, hd]

theorem SlotsLe.parity (n N : Nat) : SlotsLe 1 n (N &&& slotOnes n) := by
  induction n generalizing N with
  | zero => exact Nat.and_zero N
  | succ n ih =>
    obtain ⟨h1, h2⟩ := slotOnes_land n N
    exact ⟨by omega, by rw [h2]; exact ih _⟩

/-- Keeping the parity of every slot keeps the action. -/
theorem evalSlots_parity (n N : Nat) (v : V) :
    evalSlots G T n (N &&& slotOnes n) v = evalSlots G T n N v := by
  induction n generalizing N v with
  | zero => rfl
  | succ n ih =>
    obtain ⟨h1, h2⟩ := slotOnes_land n N
    rw [evalSlots, h2, ih, evalSlots]
    congr 1
    unfold bitTerm
    have : (N &&& slotOnes (n + 1)) % 2 = N % 2 := by omega
    rw [this]

/-- A number of few slots has few slots. -/
theorem SlotsLe.truncate {c n k N : Nat} (h : SlotsLe c (n + k) N) (hN : N < 4096 ^ n) :
    SlotsLe c n N := by
  induction n generalizing N with
  | zero => exact Nat.lt_one_iff.mp hN
  | succ n ih =>
    rw [Nat.add_right_comm] at h
    refine ⟨h.1, ih h.2 ?_⟩
    rw [Nat.pow_succ] at hN
    omega

/-- The bits of a polynomial in slots. -/
def spread : Nat → Nat → Nat
  | 0, _ => 0
  | n + 1, a => a % 2 + 4096 * spread n (a / 2)

theorem spread_slots (n a : Nat) : SlotsLe 1 n (spread n a) := by
  induction n generalizing a with
  | zero => rfl
  | succ n ih =>
    refine ⟨by rw [spread]; omega, ?_⟩
    rw [spread, show (a % 2 + 4096 * spread n (a / 2)) / 4096 = spread n (a / 2) by omega]
    exact ih _

theorem evalSlots_spread (n a : Nat) (v : V) :
    evalSlots G T n (spread n a) v = G.evalPoly T n a v := by
  induction n generalizing a v with
  | zero => rfl
  | succ n ih =>
    have h : (a % 2 + 4096 * spread n (a / 2)) / 4096 = spread n (a / 2) := by omega
    rw [evalSlots, spread, h, ih, evalPoly]
    congr 1
    unfold bitTerm
    rw [show (a % 2 + 4096 * spread n (a / 2)) % 2 = a % 2 by omega]

section chain

variable {d : Nat}

/-- One squaring: the square plus a multiple of `P`, the multiple found with the help of `mu`. -/
def squareStep (d P mu h : Nat) : Nat :=
  let sq := h * h
  let hi := (sq &&& slotOnes (d + d)) / 4096 ^ d
  let q := (((hi * mu) &&& slotOnes (d + d + 1)) / 4096 ^ d) &&& slotOnes d
  (sq + q * P) &&& slotOnes (d + (d + 1))

/-- `n` squarings from `h`, each result below `bound`, end at `target`. -/
def squareCheck (d P mu bound target : Nat) : Nat → Nat → Bool
  | 0, h => Nat.beq h target
  | n + 1, h =>
    force (squareStep d P mu h) fun r => Nat.blt r bound && squareCheck d P mu bound target n r

variable {P mu : Nat}

/-- A squaring's action is the action twice. -/
theorem evalSlots_squareStep (hT : G.Additive T) (hd : 2 * d < 4096) (hP : SlotsLe 1 (d + 1) P)
    (hA : ∀ v, evalSlots G T (d + 1) P v = G.zero) {h : Nat} (hh : SlotsLe 1 d h)
    (hlt : squareStep d P mu h < 4096 ^ d) (v : V) :
    SlotsLe 1 d (squareStep d P mu h) ∧
      evalSlots G T d (squareStep d P mu h) v = evalSlots G T d h (evalSlots G T d h v) := by
  have hs : SlotsLe 1 d (squareStep d P mu h) := (SlotsLe.parity _ _).truncate hlt
  refine ⟨hs, ?_⟩
  rw [← evalSlots_extend hs (d + 1)]
  generalize hq : ((((h * h &&& slotOnes (d + d)) / 4096 ^ d) * mu &&& slotOnes (d + d + 1)) /
    4096 ^ d) &&& slotOnes d = q
  have hqs : SlotsLe 1 d q := by rw [← hq]; exact SlotsLe.parity _ _
  have e : squareStep d P mu h = (h * h + q * P) &&& slotOnes (d + (d + 1)) := by
    rw [← hq]; rfl
  have h1 : SlotsLe d (d + (d + 1)) (h * h) := by
    rw [← Nat.add_assoc]; exact (hh.mul (by omega) hh).extend 1
  have h2 : SlotsLe d (d + (d + 1)) (q * P) := hqs.mul (by omega) hP
  rw [e, evalSlots_parity, evalSlots_plus (by omega) h1 h2,
    evalSlots_mul hT (by omega) hqs hP, hA, ← Nat.add_assoc d d 1,
    evalSlots_extend (hh.mul (by omega) hh) 1, evalSlots_mul hT (by omega) hh hh]
  have hz : evalSlots G T d q G.zero = G.zero := by
    have := evalSlots_mul (G := G) (T := T) hT (by omega) hqs (SlotsLe.zero 1 0) G.zero
    rw [Nat.mul_zero, evalSlots_zero_num] at this
    exact this.symm
  rw [hz, G.add_zero]

/-- A checked chain of `n` squarings acts as `2^n` times the first action. -/
theorem squareCheck_acts (hT : G.Additive T) (hd : 2 * d < 4096) (hP : SlotsLe 1 (d + 1) P)
    (hA : ∀ v, evalSlots G T (d + 1) P v = G.zero) {target : Nat} (n : Nat) {h : Nat}
    (hh : SlotsLe 1 d h) (hc : squareCheck d P mu (4096 ^ d) target n h = true) (v : V) :
    evalSlots G T d target v = (evalSlots G T d h)^[2 ^ n] v := by
  induction n generalizing h with
  | zero =>
    rw [squareCheck] at hc
    rw [Nat.eq_of_beq_eq_true hc]; rfl
  | succ n ih =>
    rw [squareCheck, force_eq, Bool.and_eq_true] at hc
    have hlt : squareStep d P mu h < 4096 ^ d := by simpa [Nat.blt_eq] using hc.1
    have hstep := fun w => evalSlots_squareStep hT hd hP hA hh hlt w
    rw [ih (hstep v).1 hc.2, Nat.pow_succ, Nat.mul_comm, Function.iterate_mul]
    congr 1
    funext w
    rw [(hstep w).2]; rfl

end chain

end Gf2

end Sys2Proof.Laws
end

