-- ==== Sys2Proof/Laws/JumpX1024.lean ====
section
/-! SUPPORT. The polynomial of 44_contract_fill_jump.md rule R176 annihilates the step of X1024 taken
relative to the pointer, and its default jump polynomial is the power of rule R171; hence the
polynomial of a stride acts as that many steps. -/

namespace Sys2Proof.Laws

-- one theorem at a time: the kernel evaluations below would each hold a thread while they wait
set_option Elab.async false

open Machine

/-- The words of X1024 after a draw: only the word at the new pointer changes (R141). -/
theorem xs_draw_word (e : Xs) (i : BitVec 4) : (Xs.draw e).1.word i =
    if i = e.p + 1 then
      (e.word (e.p + 1) ^^^ (e.word (e.p + 1) <<< 31)) ^^^ e.word e.p ^^^
        ((e.word (e.p + 1) ^^^ (e.word (e.p + 1) <<< 31)) >>> 11) ^^^ (e.word e.p >>> 30)
    else e.word i := by
  simp only [Xs.draw, Xs.word, Vector.getElem_set]
  by_cases h : i = e.p + 1
  · subst h; simp
  · have : (e.p + 1).toNat ≠ i.toNat := fun hc => h (BitVec.eq_of_toNat_eq hc.symm)
    rw [if_neg this, if_neg h]

theorem xs_draw_pointer (e : Xs) : (Xs.draw e).1.p = e.p + 1 := rfl

/-- Word arrays with the bitwise sum (R176: "1024-bit vectors"). -/
def wordsGf2 : Gf2 (Vector Word 16) where
  zero := words16 fun _ => 0
  add := xorWords
  add_assoc a b c := words_ext _ _ fun i => by simp [xorWords, BitVec.xor_assoc]
  add_comm a b := words_ext _ _ fun i => by simp [xorWords, BitVec.xor_comm]
  zero_add a := words_ext _ _ fun i => by simp [xorWords]
  add_self a := words_ext _ _ fun i => by simp [xorWords]

theorem wordsGf2_add (a b : Vector Word 16) (i : BitVec 4) :
    (wordsGf2.add a b)[i.toNat] = a[i.toNat] ^^^ b[i.toNat] := words16_get _ _

theorem wordsGf2_zero (i : BitVec 4) : (wordsGf2.zero)[i.toNat] = 0 := words16_get _ _

/-- The newly written word of a draw, from the words at the old and the new pointer (R141). -/
def newWord (a b0 : Word) : Word :=
  let b := b0 ^^^ (b0 <<< 31)
  b ^^^ a ^^^ (b >>> 11) ^^^ (a >>> 30)

/-- The map `T` of R176: one draw on the words taken relative to the pointer. -/
def relStep (r : Vector Word 16) : Vector Word 16 :=
  words16 fun i => if i = 0 then newWord r[(0 : BitVec 4).toNat] r[(1 : BitVec 4).toNat]
    else r[(i + 1).toNat]

theorem relative_get (e : Xs) (i : BitVec 4) : e.relative[i.toNat] = e.word (e.p + i) :=
  words16_get _ _

/-- A draw acts on the relative words by `T` (R147 (c), R176). -/
theorem relative_draw (e : Xs) : (Xs.draw e).1.relative = relStep e.relative := by
  apply words_ext
  intro i
  rw [relative_get, xs_draw_pointer, xs_draw_word, relStep, words16_get, relative_get, relative_get,
    relative_get]
  by_cases h : i = 0
  · subst h
    simp [newWord]
  · have h1 : e.p + 1 + i ≠ e.p + 1 := by
      intro hc
      apply h
      have : e.p + 1 + i - (e.p + 1) = 0 := by rw [hc, BitVec.sub_self]; rfl
      rwa [BitVec.add_comm, BitVec.add_sub_cancel] at this
    rw [if_neg h1, if_neg h, BitVec.add_assoc, BitVec.add_comm 1 i]

/-- `n` draws act on the relative words by `T`, `n` times. -/
theorem relative_steps (n : Nat) (e : Xs) :
    (steps Xs.draw n e).relative = relStep^[n] e.relative := by
  induction n generalizing e with
  | zero => rfl
  | succ n ih => rw [steps, ih, relative_draw, Function.iterate_succ_apply]

theorem xor_swap4 (a b c d e f g h : Word) :
    (a ^^^ b) ^^^ (c ^^^ d) ^^^ (e ^^^ f) ^^^ (g ^^^ h) =
      (a ^^^ c ^^^ e ^^^ g) ^^^ (b ^^^ d ^^^ f ^^^ h) := by
  rw [xor_swap3 a b c d e f, xor_swap (a ^^^ c ^^^ e) (b ^^^ d ^^^ f) g h]

theorem newWord_xor (a b c d : Word) :
    newWord (a ^^^ b) (c ^^^ d) = newWord a c ^^^ newWord b d := by
  have hb : (c ^^^ d) ^^^ ((c ^^^ d) <<< 31) = (c ^^^ (c <<< 31)) ^^^ (d ^^^ (d <<< 31)) := by
    rw [BitVec.shiftLeft_xor_distrib, xor_swap]
  simp only [newWord, hb]
  rw [BitVec.ushiftRight_xor_distrib (c ^^^ (c <<< 31)) (d ^^^ (d <<< 31)) 11,
    BitVec.ushiftRight_xor_distrib a b 30, xor_swap4]

/-- `T` is linear over GF(2) (R147 (a), R176). -/
theorem relStep_additive : wordsGf2.Additive relStep := by
  intro a b
  apply words_ext
  intro i
  rw [wordsGf2_add, relStep, words16_get, relStep, words16_get, relStep, words16_get]
  simp only [wordsGf2_add]
  split
  · exact newWord_xor _ _ _ _
  · rfl

/-- The loop of R176 is the sum of the steps named by the polynomial's bits. -/
theorem xs_applyPoly (n r : Nat) (c : Xs) (t : Vector Word 16) :
    Xs.applyPoly n r c t = wordsGf2.add t (wordsGf2.evalPoly relStep n r c.relative) := by
  induction n generalizing r c t with
  | zero => exact (wordsGf2.add_zero _).symm
  | succ n ih =>
    rw [Xs.applyPoly, ih, Gf2.evalPoly, ← wordsGf2.add_assoc, relative_draw]
    congr 1
    unfold Gf2.bitTerm
    split
    · rfl
    · exact (wordsGf2.add_zero _).symm

/-! The words of an array as one number, on which the kernel evaluates quickly. -/

/-- The number `sum of r[i] * 2^(64 i)` of a list of words. -/
def packList : List Word → Nat
  | [] => 0
  | w :: ws => w.toNat + 2 ^ 64 * packList ws

/-- The number of a word array (R176). -/
def pack (v : Vector Word 16) : Nat := packList v.toList

theorem packed_xor (x y X Y : Nat) (hx : x < 2 ^ 64) (hy : y < 2 ^ 64) :
    (x + 2 ^ 64 * X) ^^^ (y + 2 ^ 64 * Y) = (x ^^^ y) + 2 ^ 64 * (X ^^^ Y) := by
  have hxy : x ^^^ y < 2 ^ 64 := Nat.xor_lt_two_pow hx hy
  apply Nat.eq_of_testBit_eq
  intro i
  rw [Nat.testBit_xor]
  simp only [Nat.add_comm _ (2 ^ 64 * _), Nat.testBit_two_pow_mul_add _ hx,
    Nat.testBit_two_pow_mul_add _ hy, Nat.testBit_two_pow_mul_add _ hxy, Nat.testBit_xor]
  split <;> rfl

theorem packList_zip (as bs : List Word) (h : as.length = bs.length) :
    packList (List.zipWith (· ^^^ ·) as bs) = packList as ^^^ packList bs := by
  induction as generalizing bs with
  | nil => cases bs with
    | nil => rfl
    | cons b bs => exact absurd h (by simp)
  | cons a as ih => cases bs with
    | nil => exact absurd h (by simp)
    | cons b bs =>
      rw [List.zipWith_cons_cons, packList, ih bs (by simpa using h), BitVec.toNat_xor, packList,
        packList, packed_xor _ _ _ _ a.isLt b.isLt]

theorem pack_add (a b : Vector Word 16) : pack (wordsGf2.add a b) = pack a ^^^ pack b := by
  have : (wordsGf2.add a b).toList = List.zipWith (· ^^^ ·) a.toList b.toList := by
    have h : wordsGf2.add a b = Vector.zipWith (· ^^^ ·) a b := by
      apply words_ext; intro i; rw [wordsGf2_add, Vector.getElem_zipWith]
    rw [h, Vector.toList_zipWith]
  rw [pack, this, packList_zip _ _ (by simp), pack, pack]

theorem packList_zero (ws : List Word) (h : packList ws = 0) : ∀ w ∈ ws, w = 0 := by
  induction ws with
  | nil => simp
  | cons w ws ih =>
    rw [packList] at h
    intro x hx
    rcases List.mem_cons.mp hx with rfl | hx
    · apply BitVec.eq_of_toNat_eq
      have : x.toNat = 0 := by omega
      simpa using this
    · exact ih (by omega) x hx

theorem pack_eq_zero (v : Vector Word 16) (h : pack v = 0) : v = wordsGf2.zero := by
  apply words_ext
  intro i
  rw [wordsGf2_zero]
  exact packList_zero _ h _ (by simp)

/-- One draw on the number of the relative words. -/
def packStep (R : Nat) : Nat :=
  let r0 := Nat.mod R 18446744073709551616
  let r1 := Nat.mod (Nat.div R 18446744073709551616) 18446744073709551616
  let b := Nat.xor r1 (Nat.mod (Nat.mul r1 2147483648) 18446744073709551616)
  let n := Nat.xor (Nat.xor b r0) (Nat.xor (Nat.div b 2048) (Nat.div r0 1073741824))
  Nat.add n (Nat.mul 18446744073709551616
    (Nat.add (Nat.div R 340282366920938463463374607431768211456)
      (Nat.mul r0 (Nat.pow 18446744073709551616 14))))

theorem packList_append (xs : List Word) (w : Word) :
    packList (xs ++ [w]) = packList xs + (2 ^ 64) ^ xs.length * w.toNat := by
  induction xs with
  | nil => simp [packList]
  | cons x xs ih =>
    rw [List.cons_append, packList, ih, packList, List.length_cons, Nat.pow_succ]
    ring

theorem newWord_toNat (a b0 : Word) : (newWord a b0).toNat =
    Nat.xor (Nat.xor (Nat.xor b0.toNat (Nat.mod (Nat.mul b0.toNat 2147483648) 18446744073709551616))
      a.toNat) (Nat.xor (Nat.div (Nat.xor b0.toNat
        (Nat.mod (Nat.mul b0.toNat 2147483648) 18446744073709551616)) 2048)
      (Nat.div a.toNat 1073741824)) := by
  have hs : (b0 <<< 31).toNat = b0.toNat * 2147483648 % 18446744073709551616 := by
    rw [BitVec.toNat_shiftLeft, Nat.shiftLeft_eq]
  have e : newWord a b0 = ((b0 ^^^ (b0 <<< 31)) ^^^ a) ^^^
      (((b0 ^^^ (b0 <<< 31)) >>> 11) ^^^ (a >>> 30)) := by
    simp only [newWord, BitVec.xor_assoc]
  rw [e]
  simp only [BitVec.toNat_xor, BitVec.toNat_ushiftRight, hs, Nat.shiftRight_eq_div_pow]
  rfl

theorem pack_step (v : Vector Word 16) : pack (relStep v) = packStep (pack v) := by
  have hv : v.toList = v[(0 : BitVec 4).toNat] :: v[(1 : BitVec 4).toNat] ::
      (List.map (fun i : BitVec 4 => v[i.toNat]) [2, 3, 4, 5, 6, 7, 8, 9, 10, 11, 12, 13, 14, 15]) := by
    have : v = words16 (fun i : BitVec 4 => v[i.toNat]) := words_ext _ _ fun i => by rw [words16_get]
    conv => lhs; rw [this]
    rfl
  have hr : (relStep v).toList = newWord v[(0 : BitVec 4).toNat] v[(1 : BitVec 4).toNat] ::
      ((List.map (fun i : BitVec 4 => v[i.toNat])
        [2, 3, 4, 5, 6, 7, 8, 9, 10, 11, 12, 13, 14, 15]) ++ [v[(0 : BitVec 4).toNat]]) := rfl
  rw [pack, pack, hv, hr]
  generalize hl : List.map (fun i : BitVec 4 => v[i.toNat])
    [2, 3, 4, 5, 6, 7, 8, 9, 10, 11, 12, 13, 14, 15] = l
  have hlen : l.length = 14 := by rw [← hl]; rfl
  generalize v[(0 : BitVec 4).toNat] = a
  generalize v[(1 : BitVec 4).toNat] = b
  rw [packList, packList, packList, packList_append, hlen, newWord_toNat]
  have ha := a.isLt
  have hb := b.isLt
  generalize packList l = L
  have h0 : Nat.mod (a.toNat + 2 ^ 64 * (b.toNat + 2 ^ 64 * L)) 18446744073709551616 = a.toNat := by
    show (a.toNat + 2 ^ 64 * (b.toNat + 2 ^ 64 * L)) % 18446744073709551616 = a.toNat
    omega
  have h1 : Nat.mod (Nat.div (a.toNat + 2 ^ 64 * (b.toNat + 2 ^ 64 * L)) 18446744073709551616)
      18446744073709551616 = b.toNat := by
    show (a.toNat + 2 ^ 64 * (b.toNat + 2 ^ 64 * L)) / 18446744073709551616 %
      18446744073709551616 = b.toNat
    omega
  have h2 : Nat.div (a.toNat + 2 ^ 64 * (b.toNat + 2 ^ 64 * L))
      340282366920938463463374607431768211456 = L := by
    show (a.toNat + 2 ^ 64 * (b.toNat + 2 ^ 64 * L)) / 340282366920938463463374607431768211456 = L
    omega
  simp only [packStep, h0, h1, h2]
  show _ + _ = _ + 2 ^ 64 * (L + a.toNat * (2 ^ 64) ^ 14)
  congr 2
  rw [Nat.mul_comm a.toNat]

/-- The sum of `T^k v` over the bits of `r`, on numbers, each value evaluated before it is used. -/
def packEval : Nat → Nat → Nat → Nat → Nat
  | 0, _, _, acc => acc
  | n + 1, r, v, acc =>
    force (packStep v) fun v' =>
      force (bif Nat.beq (Nat.mod r 2) 1 then Nat.xor acc v else acc) fun acc' =>
        force (Nat.div r 2) fun r' => packEval n r' v' acc'

theorem packEval_eq (n r : Nat) (v acc : Vector Word 16) :
    packEval n r (pack v) (pack acc) =
      pack (wordsGf2.add acc (wordsGf2.evalPoly relStep n r v)) := by
  induction n generalizing r v acc with
  | zero => exact congrArg pack (wordsGf2.add_zero _).symm
  | succ n ih =>
    rw [packEval, force_eq, force_eq, force_eq, ← pack_step, Gf2.evalPoly, ← wordsGf2.add_assoc]
    have hacc : (bif Nat.beq (Nat.mod r 2) 1 then Nat.xor (pack acc) (pack v) else pack acc) =
        pack (wordsGf2.add acc (wordsGf2.bitTerm r v)) := by
      unfold Gf2.bitTerm
      by_cases h : r % 2 = 1
      · have hb : Nat.beq (Nat.mod r 2) 1 = true := by
          show Nat.beq (r % 2) 1 = true
          rw [h]; rfl
        rw [hb, if_pos h, pack_add]; rfl
      · have hb : Nat.beq (Nat.mod r 2) 1 = false := by
          rw [← Bool.not_eq_true]
          exact fun hc => h (Nat.eq_of_beq_eq_true hc)
        rw [hb, if_neg h, wordsGf2.add_zero]; rfl
    rw [hacc]
    exact ih _ _ _

/-- One word at the index `i`, zero elsewhere. -/
def single (i : BitVec 4) (a : Word) : Vector Word 16 := words16 fun j => if j = i then a else 0

theorem pack_single_zero (a : Word) : pack (single 0 a) = a.toNat := by
  show packList [a, 0, 0, 0, 0, 0, 0, 0, 0, 0, 0, 0, 0, 0, 0, 0] = _
  simp [packList]

theorem pack_zero : pack wordsGf2.zero = 0 := by decide +kernel

theorem charPolyX1024_degree : Gf2.HasDegree 1024 charPolyX1024 := by
  constructor <;> decide +kernel

/-- Whether the characteristic polynomial sends the one-bit first words `i` to `i + n - 1` to zero. -/
def annihilatesBits (P i : Nat) : Nat → Bool
  | 0 => true
  | n + 1 => Nat.beq (packEval 1025 P (2 ^ (i + n)) 0) 0 && annihilatesBits P i n

theorem annihilatesBits_spec (P i n : Nat) (h : annihilatesBits P i n = true) (k : Nat)
    (hk : i ≤ k ∧ k < i + n) : packEval 1025 P (2 ^ k) 0 = 0 := by
  induction n with
  | zero => omega
  | succ n ih =>
    rw [annihilatesBits, Bool.and_eq_true] at h
    by_cases hn : k = i + n
    · subst hn; exact Nat.eq_of_beq_eq_true h.1
    · exact ih h.2 (by omega)

theorem charPolyX1024_bits_0 : force charPolyX1024 (fun P => annihilatesBits P 0 16) = true := by
  decide +kernel

theorem charPolyX1024_bits_16 : force charPolyX1024 (fun P => annihilatesBits P 16 16) = true := by
  decide +kernel

theorem charPolyX1024_bits_32 : force charPolyX1024 (fun P => annihilatesBits P 32 16) = true := by
  decide +kernel

theorem charPolyX1024_bits_48 : force charPolyX1024 (fun P => annihilatesBits P 48 16) = true := by
  decide +kernel

/-- The characteristic polynomial sends every one-bit first word to zero. -/
theorem charPolyX1024_bits (k : Nat) (hk : k < 64) : packEval 1025 charPolyX1024 (2 ^ k) 0 = 0 := by
  rcases (by omega : k < 16 ∨ (16 ≤ k ∧ k < 32) ∨ (32 ≤ k ∧ k < 48) ∨ (48 ≤ k ∧ k < 64)) with
    h | h | h | h
  · exact annihilatesBits_spec _ 0 16 (by rw [← charPolyX1024_bits_0, force_eq]) k (by omega)
  · exact annihilatesBits_spec _ 16 16 (by rw [← charPolyX1024_bits_16, force_eq]) k (by omega)
  · exact annihilatesBits_spec _ 32 16 (by rw [← charPolyX1024_bits_32, force_eq]) k (by omega)
  · exact annihilatesBits_spec _ 48 16 (by rw [← charPolyX1024_bits_48, force_eq]) k (by omega)

theorem xs_annihilated_first (a : Word) :
    wordsGf2.evalPoly relStep 1025 charPolyX1024 (single 0 a) = wordsGf2.zero := by
  refine additive_word_zero wordsGf2
    (fun a => wordsGf2.evalPoly relStep 1025 charPolyX1024 (single 0 a)) ?_ ?_ a
  · intro a b
    rw [← Gf2.evalPoly_add relStep_additive]
    congr 1
    apply words_ext
    intro i
    rw [wordsGf2_add, single, words16_get, single, words16_get, single, words16_get]
    split <;> simp
  · intro i hi
    apply pack_eq_zero
    have h := packEval_eq 1025 charPolyX1024 (single 0 (BitVec.ofNat 64 (2 ^ i))) wordsGf2.zero
    rw [wordsGf2.zero_add, pack_single_zero, pack_zero, BitVec.toNat_ofNat,
      Nat.mod_eq_of_lt (Nat.pow_lt_pow_right (by decide) hi), charPolyX1024_bits i hi] at h
    exact h.symm

/-- A word at an index of 2 or more moves down by one. -/
theorem relStep_single (i : BitVec 4) (h0 : i ≠ 0) (h1 : i ≠ 1) (a : Word) :
    relStep (single i a) = single (i - 1) a := by
  apply words_ext
  intro j
  rw [relStep, words16_get]
  simp only [single, words16_get]
  revert h0 h1
  rcases index_cases i with h | h | h | h | h | h | h | h | h | h | h | h | h | h | h | h <;> subst h <;>
    intro h0 h1 <;> (try exact absurd rfl h0) <;> (try exact absurd rfl h1) <;>
    rcases index_cases j with h | h | h | h | h | h | h | h | h | h | h | h | h | h | h | h <;>
    subst h <;> simp [newWord]

theorem relStep_single_zero (a : Word) :
    relStep (single 0 a) = wordsGf2.add (single 0 (a ^^^ (a >>> 30))) (single 15 a) := by
  apply words_ext
  intro j
  rw [relStep, words16_get, wordsGf2_add]
  simp only [single, words16_get]
  rcases index_cases j with h | h | h | h | h | h | h | h | h | h | h | h | h | h | h | h <;>
    subst h <;> simp [newWord]

/-- The characteristic polynomial sends the single word `a` at the index `i` to zero. -/
def SingleZero (a : Word) (i : BitVec 4) : Prop :=
  wordsGf2.evalPoly relStep 1025 charPolyX1024 (single i a) = wordsGf2.zero

theorem singleZero_fifteen (a : Word) : SingleZero a 15 := by
  have h := Gf2.evalPoly_step relStep_additive 1025 charPolyX1024 (single 0 a)
  rw [xs_annihilated_first, relStep_additive.zero, relStep_single_zero,
    Gf2.evalPoly_add relStep_additive, xs_annihilated_first, wordsGf2.zero_add] at h
  exact h

theorem singleZero_down (a : Word) (i j : BitVec 4) (h0 : i ≠ 0) (h1 : i ≠ 1) (hj : j = i - 1)
    (h : SingleZero a i) : SingleZero a j := by
  unfold SingleZero at *
  rw [hj, ← relStep_single i h0 h1, Gf2.evalPoly_step relStep_additive, h, relStep_additive.zero]

theorem xs_annihilated_single (i : BitVec 4) (a : Word) : SingleZero a i := by
  have h15 := singleZero_fifteen a
  have h14 := singleZero_down a 15 14 (by decide) (by decide) (by decide) h15
  have h13 := singleZero_down a 14 13 (by decide) (by decide) (by decide) h14
  have h12 := singleZero_down a 13 12 (by decide) (by decide) (by decide) h13
  have h11 := singleZero_down a 12 11 (by decide) (by decide) (by decide) h12
  have h10 := singleZero_down a 11 10 (by decide) (by decide) (by decide) h11
  have h9 := singleZero_down a 10 9 (by decide) (by decide) (by decide) h10
  have h8 := singleZero_down a 9 8 (by decide) (by decide) (by decide) h9
  have h7 := singleZero_down a 8 7 (by decide) (by decide) (by decide) h8
  have h6 := singleZero_down a 7 6 (by decide) (by decide) (by decide) h7
  have h5 := singleZero_down a 6 5 (by decide) (by decide) (by decide) h6
  have h4 := singleZero_down a 5 4 (by decide) (by decide) (by decide) h5
  have h3 := singleZero_down a 4 3 (by decide) (by decide) (by decide) h4
  have h2 := singleZero_down a 3 2 (by decide) (by decide) (by decide) h3
  have h1 := singleZero_down a 2 1 (by decide) (by decide) (by decide) h2
  have h0 : SingleZero a 0 := xs_annihilated_first a
  rcases index_cases i with h | h | h | h | h | h | h | h | h | h | h | h | h | h | h | h <;> rw [h]
  exacts [h0, h1, h2, h3, h4, h5, h6, h7, h8, h9, h10, h11, h12, h13, h14, h15]

/-- The sum of the single words of the indices in a list. -/
def sumSingles (v : Vector Word 16) : List (BitVec 4) → Vector Word 16
  | [] => wordsGf2.zero
  | i :: is => wordsGf2.add (single i v[i.toNat]) (sumSingles v is)

/-- `P(T) = 0` for X1024 (R176). -/
theorem charPolyX1024_annihilates : Gf2.Annihilates wordsGf2 relStep 1024 charPolyX1024 := by
  intro v
  have hsum : ∀ is : List (BitVec 4),
      wordsGf2.evalPoly relStep 1025 charPolyX1024 (sumSingles v is) = wordsGf2.zero := by
    intro is
    induction is with
    | nil => exact Gf2.evalPoly_zero relStep_additive _ _
    | cons i is ih =>
      have hi : wordsGf2.evalPoly relStep 1025 charPolyX1024 (single i v[i.toNat]) = wordsGf2.zero :=
        xs_annihilated_single i _
      rw [sumSingles, Gf2.evalPoly_add relStep_additive, ih, hi, wordsGf2.zero_add]
  have hv : v = sumSingles v [0, 1, 2, 3, 4, 5, 6, 7, 8, 9, 10, 11, 12, 13, 14, 15] := by
    apply words_ext
    intro i
    simp only [sumSingles, wordsGf2_add, wordsGf2_zero, single, words16_get]
    rcases index_cases i with h | h | h | h | h | h | h | h | h | h | h | h | h | h | h | h <;>
      subst h <;> simp
  rw [hv]
  exact hsum _

/-- `floor(x^2048 / P)`, by which the check below finds its multiples of `P`; nothing rests on its
value. -/
def quotientHelp : Nat := polyOfWords
  [0xB45194E4A7DD96A6, 0xBFCCE33722B8E190, 0x55083300ED26A70E, 0xCA4358A8308DC904,
   0x5A71C15B48416CEB, 0x8FDA20E898C26B2B, 0x6BA43AF98ED8308C, 0x430A9A70E6759B1F,
   0x534F09D864E36BCB, 0xD4C572AD55909CBD, 0x86D2AEB2F433A713, 0x31037BCC050F5F47,
   0x2C7804701874D021, 0x1100110005000551, 0x7878787878780001, 0x0000000000007879,
   0x0000000000000001]

theorem jumpPolyX1024_chain :
    force (Gf2.spread 1025 charPolyX1024) (fun P => force (Gf2.spread 1025 quotientHelp) fun mu =>
      force (Gf2.spread 1024 jumpPolyX1024Default) fun target =>
        Gf2.squareCheck 1024 P mu (4096 ^ 1024) target 512 4096) = true := by
  decide +kernel

/-- The words `JP` of R176 act as 2^512 steps. -/
theorem jumpPolyX1024Default_acts (v : Vector Word 16) :
    wordsGf2.evalPoly relStep 1024 jumpPolyX1024Default v = relStep^[2 ^ 512] v := by
  have hc := jumpPolyX1024_chain
  rw [force_eq, force_eq, force_eq] at hc
  have h1 : Gf2.SlotsLe 1 1024 4096 :=
    Gf2.SlotsLe.extend (c := 1) (n := 2) (N := 4096) ⟨by decide, by decide, rfl⟩ 1022
  have hx : ∀ w, Gf2.evalSlots wordsGf2 relStep 1024 4096 w = relStep w := by
    intro w
    have h2 : Gf2.SlotsLe 1 2 4096 := ⟨by decide, by decide, rfl⟩
    rw [show 1024 = 2 + 1022 from rfl, Gf2.evalSlots_extend h2]
    simp [Gf2.evalSlots, Gf2.bitTerm, wordsGf2.zero_add, wordsGf2.add_zero]
  have h := Gf2.squareCheck_acts (G := wordsGf2) (T := relStep) (d := 1024) relStep_additive (by decide)
    (Gf2.spread_slots 1025 charPolyX1024)
    (fun w => by rw [Gf2.evalSlots_spread]; exact charPolyX1024_annihilates w) 512 h1 hc v
  rw [Gf2.evalSlots_spread, funext hx] at h
  exact h

/-- The jump polynomial of every stride acts as that many steps. -/
theorem jumpPolyX1024_acts (J : Nat) (v : Vector Word 16) :
    wordsGf2.evalPoly relStep 1024 (jumpPolyX1024 J) v = relStep^[J] v := by
  unfold jumpPolyX1024
  split
  · rename_i h
    rw [h]
    exact jumpPolyX1024Default_acts v
  · exact Gf2.evalPoly_polyPow relStep_additive charPolyX1024_annihilates (by decide)
      charPolyX1024_degree _ _ Nat.lt_log2_self v

/-- Storing the relative words from the pointer on gives the engine back (R176). -/
theorem ofRelative_relative (e : Xs) : Xs.ofRelative e.relative e.p = e := by
  have h : (Xs.ofRelative e.relative e.p).s = e.s := by
    apply words_ext
    intro i
    rw [Xs.ofRelative, words16_get, relative_get]
    show e.word (e.p + (i - e.p)) = _
    rw [BitVec.add_comm, BitVec.sub_add_cancel]
    rfl
  cases e
  exact congrArg (fun s => Xs.mk s _) h

end Sys2Proof.Laws
end

