-- ==== Sys2Proof/Tests/Slice0.lean ====
section
/-! SUPPORT. The model's own tests: ill-formed frames, the words of the opcode map, vectors of
spec/95_test_vectors.md (named by their ids there), and for every statement with hypotheses a
concrete case that meets them. -/

namespace Sys2Proof.Tests

-- one theorem at a time: the kernel evaluations below would each hold a thread while they wait
set_option Elab.async false

open Machine

/-! ## Helpers -/

/-- The state a step answers with. -/
def stateOf : Host.Outcome State Fault Refusal → Option State
  | .next t => some t
  | .fault _ => none
  | .refused _ => none

/-- The last response of an outcome, as the byte string of 30_encoding.md rule R71. -/
def sent (o : Host.Outcome State Fault Refusal) : Option (List Byte) :=
  ((stateOf o).bind fun t => t.outbox.getLast?).map Response.toBytes

/-- The block after reset with SM64 seeded. -/
def withSm (x : Word) : State := State.reset.setSm ⟨x⟩

/-- The block after reset with X128 seeded. -/
def withXo (a b : Word) : State := State.reset.setXo ⟨a, b⟩

/-- The words 1 to 16 of V3.1. -/
def ramp : Vector Word 16 := words16 fun i => BitVec.ofNat 64 (i.toNat + 1)

/-- Sixteen zero words. -/
def noWords : Vector Word 16 := words16 fun _ => 0

/-- The block after reset with X1024 seeded with the words of V3.1, the pointer at `p`. -/
def withXs (p : BitVec 4) : State := State.reset.setXs ⟨ramp, p⟩

/-- An answer of the entropy source that begins with these bytes; the rest of the 128 are zero. -/
def answer (l : List Byte) : EntAnswer := .ok (Vector.ofFn fun i => l.getD i 0)

/-- The block `s` as an instance with other strides (R6). -/
def strided (s : State) (j : Strides) : State := { s with strides := j }

/-- The block `s` with answers of the entropy source lined up. -/
def lined (s : State) (l : List EntAnswer) : State := { s with entropy := l }

/-- The block after reset with host inputs waiting. -/
def waiting (l : List HostInput) : State := { State.reset with inbox := l }

/-- `n` zero bytes. -/
def zeros (n : Nat) : List Byte := List.replicate n 0

/-! ## Ill-formed frames: one for each test of R66 (V6.2) -/

theorem test_illegal_reserved_bits : (Frame.mk 0x00000045#32 []).reservedZero = false ∧
    decode ⟨0x00000045#32, []⟩ = .illegal .reservedBits := by decide

theorem test_illegal_engine : (Frame.mk 0x00000035#32 []).engineKnown = false ∧
    decode ⟨0x00000035#32, []⟩ = .illegal .reservedEngine := by decide

theorem test_illegal_operation : (Frame.mk 0x00000000#32 []).operationKnown = false ∧
    decode ⟨0x00000000#32, []⟩ = .illegal .reservedOperation ∧
    decode ⟨0x00000009#32, []⟩ = .illegal .reservedOperation ∧
    decode ⟨0x0000000F#32, []⟩ = .illegal .reservedOperation := by decide

theorem test_illegal_len : (Frame.mk 0x00000105#32 []).lenAllowed = false ∧
    decode ⟨0x00000105#32, []⟩ = .illegal .lengthNotZero ∧
    decode ⟨0x80000011#32, zeros 16⟩ = .illegal .lengthNotZero := by decide

theorem test_illegal_seedd : (Frame.mk 0x00000004#32 []).seeddAllowed = false ∧
    decode ⟨0x00000004#32, []⟩ = .illegal .seeddEngine ∧
    decode ⟨0x00000024#32, []⟩ = .illegal .seeddEngine := by decide

theorem test_illegal_payload : (Frame.mk 0x00000011#32 (zeros 8)).payloadFits = false ∧
    decode ⟨0x00000011#32, zeros 8⟩ = .illegal .payloadLength ∧
    decode ⟨0x00000011#32, []⟩ = .illegal .payloadLength ∧
    decode ⟨0x00000005#32, [0]⟩ = .illegal .payloadLength ∧
    decode ⟨0x00000012#32, zeros 16⟩ = .illegal .payloadLength := by decide

/-- Of the 256 low bytes exactly 22 are commands, with the payload R65 asks for (V6.1). -/
theorem test_exactly_22_commands : ((List.range 256).filter fun n => (decodeTableWord 32 n).isSome) =
    [0x01, 0x02, 0x03, 0x05, 0x06, 0x07, 0x08, 0x11, 0x12, 0x13, 0x14, 0x15, 0x16, 0x17, 0x18,
     0x21, 0x22, 0x23, 0x25, 0x26, 0x27, 0x28] := by decide +kernel

/-! ## The words of the opcode map, bit by bit: LEN, RSV, ENG, OP (R61, R75) -/

theorem test_word_seedbSm64 :
    decode ⟨0b00000000000000000000000000000001#32,
      [0x87, 0xD6, 0x12, 0, 0, 0, 0, 0]⟩ = .command (.seedbSm64 1234567) := by decide

theorem test_word_seediSm64 :
    decode ⟨0b00000000000000000000000000000010#32,
      [0xEB, 0x83, 0xB5, 0x80, 0x46, 0x86, 0xC8, 0x61]⟩ = .command (.seediSm64 0x61C8864680B583EB) := by decide

theorem test_word_seedeSm64 :
    decode ⟨0b00000000000000000000000000000011#32,
      []⟩ = .command (.seedeSm64) := by decide

theorem test_word_next64Sm64 :
    decode ⟨0b00000000000000000000000000000101#32,
      []⟩ = .command (.next64Sm64) := by decide

theorem test_word_next32Sm64 :
    decode ⟨0b00000000000000000000000000000110#32,
      []⟩ = .command (.next32Sm64) := by decide

theorem test_word_fillSm64 :
    decode ⟨0b00000000000000000000100100000111#32,
      []⟩ = .command (.fillSm64 9) := by decide

theorem test_word_jumpSm64 :
    decode ⟨0b00000000000000000000000000001000#32,
      []⟩ = .command (.jumpSm64) := by decide

theorem test_word_seedbX128 :
    decode ⟨0b00000000000000000000000000010001#32,
      [0xEF, 0xCD, 0xAB, 0x89, 0x67, 0x45, 0x23, 0x01, 0x10, 0x32, 0x54, 0x76, 0x98, 0xBA, 0xDC, 0xFE]⟩ = .command (.seedbX128 0x0123456789ABCDEF 0xFEDCBA9876543210) := by decide

theorem test_word_seediX128 :
    decode ⟨0b00000000000000000000000000010010#32,
      [0xEB, 0x83, 0xB5, 0x80, 0x46, 0x86, 0xC8, 0x61]⟩ = .command (.seediX128 0x61C8864680B583EB) := by decide

theorem test_word_seedeX128 :
    decode ⟨0b00000000000000000000000000010011#32,
      []⟩ = .command (.seedeX128) := by decide

theorem test_word_seeddX128 :
    decode ⟨0b00000000000000000000000000010100#32,
      []⟩ = .command (.seeddX128) := by decide

theorem test_word_next64X128 :
    decode ⟨0b00000000000000000000000000010101#32,
      []⟩ = .command (.next64X128) := by decide

theorem test_word_next32X128 :
    decode ⟨0b00000000000000000000000000010110#32,
      []⟩ = .command (.next32X128) := by decide

theorem test_word_fillX128 :
    decode ⟨0b00000000000000000001010000010111#32,
      []⟩ = .command (.fillX128 20) := by decide

theorem test_word_jumpX128 :
    decode ⟨0b00000000000000000000000000011000#32,
      []⟩ = .command (.jumpX128) := by decide

theorem test_word_seedbX1024 :
    decode ⟨0b00000000000000000000000000100001#32,
      (zeros 8 ++ [0, 0, 0, 0, 0, 0, 0, 0x80] ++ zeros 112)⟩ = .command (.seedbX1024 (words16 fun i => if i = 1 then 0x8000000000000000 else 0)) := by decide +kernel

theorem test_word_seediX1024 :
    decode ⟨0b00000000000000000000000000100010#32,
      [1, 0, 0, 0, 0, 0, 0, 0]⟩ = .command (.seediX1024 1) := by decide

theorem test_word_seedeX1024 :
    decode ⟨0b00000000000000000000000000100011#32,
      []⟩ = .command (.seedeX1024) := by decide

theorem test_word_next64X1024 :
    decode ⟨0b00000000000000000000000000100101#32,
      []⟩ = .command (.next64X1024) := by decide

theorem test_word_next32X1024 :
    decode ⟨0b00000000000000000000000000100110#32,
      []⟩ = .command (.next32X1024) := by decide

theorem test_word_fillX1024 :
    decode ⟨0b11111111111111111111111100100111#32,
      []⟩ = .command (.fillX1024 16777215) := by decide

theorem test_word_jumpX1024 :
    decode ⟨0b00000000000000000000000000101000#32,
      []⟩ = .command (.jumpX1024) := by decide

/-- The word of a table row with an operand, payload bits zero, is decoded and stored for `step`. -/
theorem test_table_word : decodeTableWord 32 0x11 = some (.seedbX128 0 0) ∧
    decodeTableWord 96 (0x0201000000000000000000000012) = some (.seediX128 0) ∧
    decodeTableWord 96 0x0000000000000201_00000012 = some (.seediX128 0x0201) ∧
    (State.reset.withFetchWord 32 0x05).fetch = (.run .next64Sm64, State.reset) := by decide +kernel

/-! ## Vectors of spec/95_test_vectors.md, one step each -/

/-- V1.1: the golden vector, output and new state. -/
theorem test_next64Sm64 : sent (exec .next64Sm64 (withSm 0)) =
    some [0x00, 0xAF, 0xCD, 0x1D, 0x7B, 0x39, 0xA8, 0x20, 0xE2] ∧
    ((stateOf (exec .next64Sm64 (withSm 0))).map State.sm) =
      some (some ⟨0x9E3779B97F4A7C15#64⟩) := by decide +kernel

/-- V1.5: the addition wraps. -/
theorem test_next64Sm64_wraps : sent (exec .next64Sm64 (withSm 0xFFFFFFFFFFFFFFFF#64)) =
    some (0x00 :: bytes64 0xE4D971771B652C20#64) := by decide +kernel

/-- V1.7: the second 32-bit word is the low half of the second draw. -/
theorem test_next32Sm64 : sent (exec .next32Sm64 (withSm 0x9E3779B97F4A7C15#64)) =
    some [0x00, 0xF4, 0x65, 0xB9, 0xA1] := by decide +kernel

/-- V4.1: nine bytes cost two draws. -/
theorem test_fillSm64 : sent (exec (.fillSm64 9) (withSm 0)) =
    some [0x00, 0xAF, 0xCD, 0x1D, 0x7B, 0x39, 0xA8, 0x20, 0xE2, 0xF4] ∧
    ((stateOf (exec (.fillSm64 9) (withSm 0))).map State.sm) =
      some (some ⟨0x3C6EF372FE94F82A#64⟩) := by decide +kernel

/-- V4.1 and V6.2: no byte changes nothing on a seeded engine, and is NotSeeded on another. -/
theorem test_fillSm64_none :
    ((stateOf (exec (.fillSm64 0) (withSm 5))).map State.sm) = some (some ⟨5⟩) ∧
    sent (exec (.fillSm64 0) (withSm 5)) = some [0x00] ∧
    sent (exec (.fillX1024 0) State.reset) = some [0x04] := by decide +kernel

/-- V5.1. -/
theorem test_jumpSm64 :
    ((stateOf (exec .jumpSm64 (withSm 0xFFFFFFFF00000000#64))).map State.sm) =
      some (some ⟨0x7F4A7C1400000000#64⟩) := by decide +kernel

/-- V6.2: zero is a legal seed of SM64; R104: the integer is the state. -/
theorem test_seedSm64 :
    ((stateOf (exec (.seedbSm64 0) State.reset)).map State.sm) = some (some ⟨0⟩) ∧
    ((stateOf (exec (.seediSm64 7) State.reset)).map State.sm) = some (some ⟨7⟩) := by decide

/-- R105 and V6.4: eight entropy bytes, little-endian, and zero is taken; a failure changes nothing. -/
theorem test_seedeSm64 :
    ((stateOf (exec .seedeSm64 (lined State.reset
      [answer [0x15, 0x7C, 0x4A, 0x7F, 0xB9, 0x79, 0x37, 0x9E]]))).map State.sm) =
        some (some ⟨0x9E3779B97F4A7C15#64⟩) ∧
    ((stateOf (exec .seedeSm64 (lined State.reset [answer []]))).map State.sm) = some (some ⟨0⟩) ∧
    stateOf (exec .seedeSm64 (lined (withSm 9) [.fail])) =
      some ((withSm 9).raise .entropySourceUnavailable) := by decide +kernel

/-- V2.1, the first two draws from [1, 0]. -/
theorem test_next64X128 : sent (exec .next64X128 (withXo 1 0)) = some (0x00 :: bytes64 1) ∧
    ((stateOf (exec .next64X128 (withXo 1 0))).map State.xo) =
      some (some ⟨0x0080000000004001#64, 0x0000001000000000#64⟩) ∧
    ((stateOf (exec .next64X128 (withXo 0x0080000000004001#64 0x0000001000000000#64))).map State.xo) =
      some (some ⟨0x0004401010000021#64, 0x0004001008000100#64⟩) := by decide +kernel

/-- V2.10 and V2.3: the low half; the sum wraps. -/
theorem test_next32X128 :
    sent (exec .next32X128 (withXo 0x0080000000004001#64 0x0000001000000000#64)) =
      some (0x00 :: bytes32 0x00004001#32) ∧
    sent (exec .next32X128 (withXo 0xFFFFFFFFFFFFFFFF#64 0xFFFFFFFFFFFFFFFF#64)) =
      some (0x00 :: bytes32 0xFFFFFFFE#32) := by decide +kernel

/-- V4.2. -/
theorem test_fillX128 : sent (exec (.fillX128 9) (withXo 1 0)) =
    some [0x00, 0x01, 0, 0, 0, 0, 0, 0, 0, 0x01] ∧
    ((stateOf (exec (.fillX128 20) (withXo 1 0))).map State.xo) =
      some (some ⟨0x0080442010404121#64, 0x8000121000040001#64⟩) := by decide +kernel

/-- V5.2. -/
theorem test_jumpX128 : ((stateOf (exec .jumpX128 (withXo 1 0))).map State.xo) =
    some (some ⟨0x966F5509BB41F421#64, 0x5FCD7CB640A13B03#64⟩) := by decide +kernel

/-- R170, R175: an instance with stride 7 jumps seven draws ahead; one with stride 0 stays. -/
theorem test_jumpX128_stride :
    (stateOf (exec .jumpX128 (strided (withXo 1 5) ⟨3, 7, 35⟩))).map (fun t => (t.xo, t.strides)) =
      some (some (steps Xo.draw 7 ⟨1, 5⟩), ⟨3, 7, 35⟩) ∧
    ((stateOf (exec .jumpX128 (strided (withXo 1 5) ⟨3, 0, 35⟩))).map State.xo) =
      some (some ⟨1, 5⟩) := by decide +kernel

/-- R172: three draws of SM64 from 0 are V1.1's third state. -/
theorem test_jumpSm64_stride :
    ((stateOf (exec .jumpSm64 (strided (withSm 0) ⟨3, 7, 35⟩))).map State.sm) =
      some (some ⟨0xDAA66D2C7DDF743F#64⟩) := by decide +kernel

/-- R176: stride 35 from pointer 5, against plain iteration; the pointer becomes 8. -/
theorem test_jumpX1024_stride :
    ((stateOf (exec .jumpX1024 (strided (withXs 5) ⟨3, 7, 35⟩))).map State.xs) =
      some (some (steps Xs.draw 35 ⟨ramp, 5⟩)) ∧ (steps Xs.draw 35 ⟨ramp, 5⟩).p = 8 := by
  decide +kernel

/-- V6.2, V6.3: the all-zero pair is refused and the old state stays; one non-zero bit is enough. -/
theorem test_seedbX128 : stateOf (exec (.seedbX128 0 0) (withXo 3 4)) =
      some ((withXo 3 4).raise .invalidSeed) ∧
    ((stateOf (exec (.seedbX128 0 0x8000000000000000#64) State.reset)).map State.xo) =
      some (some ⟨0, 0x8000000000000000#64⟩) := by decide +kernel

/-- V2.7, V2.9. -/
theorem test_seediX128 : ((stateOf (exec (.seediX128 0) State.reset)).map State.xo) =
      some (some ⟨0xE220A8397B1DCDAF#64, 0x6E789E6AA1B965F4#64⟩) ∧
    ((stateOf (exec (.seediX128 0x61C8864680B583EB#64) State.reset)).map State.xo) =
      some (some ⟨0, 0xE220A8397B1DCDAF#64⟩) := by decide +kernel

/-- V6.4: a zero draw is rejected with no response, the next one seeds; a failure leaves the engine. -/
theorem test_seedeX128 :
    (stateOf (runSteps 3 (lined (waiting [.frame ⟨0x13#32, []⟩])
      [answer [], answer [], answer [0, 0, 0, 0, 0, 0, 0, 0, 2]]))).map
        (fun t => (t.xo, t.outbox, t.redraw, t.entropy)) =
      some (some ⟨0, 2⟩, [.done], none, []) ∧
    (stateOf (exec .seedeX128 (lined (withXo 3 4) [answer []]))).map
        (fun t => (t.xo, t.outbox, t.redraw)) = some (some ⟨3, 4⟩, [], some .x128) ∧
    (stateOf (exec .seedeX128 (lined (withXo 3 4) [.fail]))).map (fun t => (t.xo, t.outbox)) =
      some (some ⟨3, 4⟩, [.failed .entropySourceUnavailable]) := by decide +kernel

/-- R125: the pair is the parameter's, and the status is OK. -/
theorem test_seeddX128 : ((stateOf (exec .seeddX128 State.reset)).map State.outbox) = some [.done] := by
  rfl

/-- V3.1, draws 1 and 2. -/
theorem test_next64X1024 : sent (exec .next64X1024 (withXs 0)) =
      some (0x00 :: bytes64 0xC0562E31B467F91F#64) ∧
    ((stateOf (exec .next64X1024 (withXs 0))).bind State.xs).map (fun e => (e.p, e.word 1, e.word 0)) =
      some (1, 0x0000000100200003#64, 1) := by decide +kernel

/-- V3.4: the left shift loses the top bit. V3.7: the low half. -/
theorem test_next32X1024 : sent (exec .next32X1024 (withXs 0)) =
      some (0x00 :: bytes32 0xB467F91F#32) ∧
    sent (exec .next64X1024 (State.reset.setXs
      ⟨words16 fun i => if i = 1 then 0x8000000000000000#64 else 0, 0⟩)) =
      some (0x00 :: bytes64 0x5B50000000000000#64) := by decide +kernel

/-- The pointer wraps from 15 to 0, and the word read first is word 15 (R141). -/
theorem test_next64X1024_wraps :
    ((stateOf (exec .next64X1024 (State.reset.setXs
      ⟨words16 fun i => if i = 15 then 1 else 0, 15⟩))).bind State.xs).map
        (fun e => (e.p, e.word 0, e.word 15)) = some (0, 1, 1) := by decide +kernel

/-- V4.3. -/
theorem test_fillX1024 : sent (exec (.fillX1024 12) (withXs 0)) =
      some [0x00, 0x1F, 0xF9, 0x67, 0xB4, 0x31, 0x2E, 0x56, 0xC0, 0xD4, 0xF6, 0xAF, 0xAD] ∧
    ((stateOf (exec (.fillX1024 17) (withXs 0))).bind State.xs).map Xs.p = some 3 := by decide +kernel

/-- V5.5: words 0, 1 and 15, and the pointer. -/
theorem test_jumpX1024 : ((stateOf (exec .jumpX1024 (withXs 0))).bind State.xs).map
      (fun e => (e.p, e.word 0, e.word 1, e.word 15)) =
    some (0, 0x759BA80B5A39FC27#64, 0x6A48DB8209C3AA8E#64, 0xA776A378394CB6EB#64) := by
  decide +kernel

/-- R142, V6.2: all zero is refused, the last bit of the payload is enough, the pointer becomes 0. -/
theorem test_seedbX1024 : stateOf (exec (.seedbX1024 noWords) (withXs 3)) =
      some ((withXs 3).raise .invalidSeed) ∧
    ((stateOf (exec (.seedbX1024 (words16 fun i => if i = 15 then 0x8000000000000000#64 else 0))
      (withXs 3))).bind State.xs).map (fun e => (e.p, e.word 15)) =
      some (0, 0x8000000000000000#64) := by decide +kernel

/-- V3.6, words 0, 1 and 15. -/
theorem test_seediX1024 : ((stateOf (exec (.seediX1024 0) (withXs 3))).bind State.xs).map
      (fun e => (e.p, e.word 0, e.word 1, e.word 15)) =
    some (0, 0xE220A8397B1DCDAF#64, 0x6E789E6AA1B965F4#64, 0x84BB3F97971D80AB#64) := by
  decide +kernel

/-- V6.4: byte 127 is the high byte of word 15. -/
theorem test_seedeX1024 : ((stateOf (exec .seedeX1024 (lined (withXs 3)
      [answer (zeros 127 ++ [0x01])]))).bind State.xs).map (fun e => (e.p, e.word 15, e.word 14)) =
      some (0, 0x0100000000000000#64, 0) ∧
    (stateOf (exec .seedeX1024 (lined (withXs 3) [answer []]))).map (fun t => (t.outbox, t.redraw)) =
      some ([], some .x1024) := by decide +kernel

/-- V6.2: an unseeded engine answers NotSeeded, an Illegal frame IllegalCommand. -/
theorem test_errors : sent (exec .next64Sm64 State.reset) = some [0x04] ∧
    sent (exec .next32X128 State.reset) = some [0x04] ∧
    sent (exec .jumpX128 State.reset) = some [0x04] ∧
    sent (step (waiting [.frame ⟨0x00000115#32, []⟩])) = some [0x03] := by decide +kernel

/-! ## Every statement with hypotheses has a case that meets them -/

theorem meets_EncodeDecodeRoundTrip : decode ⟨0x00000907#32, []⟩ = .command (.fillSm64 9) := by
  decide

theorem meets_CommandWordFields : (0 : BitVec 2) ≠ 3 ∧ (2 : BitVec 2) ≠ 3 := by
  decide

theorem meets_LittleEndianRoundTrip : (bytes64 0x8000000000000001#64).length = 8 := by
  decide

theorem meets_FrameStringRoundTrip : (Frame.mk 0x12#32 (zeros 8)).payload.length =
      payLen (Frame.mk 0x12#32 (zeros 8)).op (Frame.mk 0x12#32 (zeros 8)).eng ∧
    Frame.cut ((Frame.mk 0x12#32 (zeros 8)).toBytes ++ [5]) = some (⟨0x12#32, zeros 8⟩, [5]) := by
  decide +kernel

theorem meets_StepRunsDecodedCommand : (waiting [.frame ⟨0x14#32, []⟩, .reset]).redraw = none ∧
    (waiting [.frame ⟨0x14#32, []⟩, .reset]).inbox = [.frame ⟨0x14#32, []⟩, .reset] ∧
    decode ⟨0x14#32, []⟩ = .command .seeddX128 := by
  decide

theorem meets_StepAnswersIllegalFrame : (waiting [.frame ⟨0, []⟩]).redraw = none ∧
    (waiting [.frame ⟨0, []⟩]).inbox = [.frame ⟨0, []⟩] ∧
    decode ⟨0, []⟩ = .illegal .reservedOperation := by
  decide

theorem meets_StepTakesReset : (waiting [.reset]).redraw = none ∧ (waiting [.reset]).inbox = [.reset] := by
  decide

theorem meets_IdleBlockHoldsState : (withSm 1).redraw = none ∧ (withSm 1).inbox = [] := by
  decide

theorem meets_StepGoesOnWithRedraw : (State.reset.setRedraw (some .x128)).redraw = some .x128 ∧
    (State.reset.setRedraw (some .x1024)).redraw = some .x1024 := by
  decide

theorem meets_SeedSm64FromPayload : (zeros 8).length = 8 := by
  decide

theorem meets_SeedSm64FromEntropy : (lined (withSm 9) [.fail]).entDraw 8 = (none, withSm 9) ∧
    (lined (withSm 9) [answer [7]]).entDraw 8 = (some (7 :: zeros 7), withSm 9) := by
  decide +kernel

theorem meets_DrawSm64Words : (withSm 0xFFFFFFFFFFFFFFFF#64).sm = some ⟨0xFFFFFFFFFFFFFFFF#64⟩ ∧ (withXo 1 0).sm = none := by
  decide

theorem meets_FillSm64Bytes : (withSm 0).sm = some ⟨0⟩ ∧ State.reset.sm = none := by
  decide

theorem meets_JumpSm64AddsConstant : (withSm 0).sm = some ⟨0⟩ ∧ State.reset.sm = none := by
  decide

theorem meets_SeedX128FromBytes : (zeros 16).length = 16 ∧ ¬((0 : Word) = 0 ∧ (1 : Word) = 0) ∧
    ¬((1 : Word) = 0 ∧ (0 : Word) = 0) ∧ ((0 : Word) = 0 ∧ (0 : Word) = 0) := by
  decide

theorem meets_SeedX128FromInteger : (bytes64 0x61C8864680B583EB#64).length = 8 := by
  decide

theorem meets_SeedX128FromEntropy : (lined State.reset [.fail]).entDraw 16 = (none, State.reset) ∧
    (lined State.reset [answer []]).entDraw 16 = (some (zeros 16), State.reset) ∧
    (le64 (zeros 16) = 0 ∧ le64 ((zeros 16).drop 8) = 0) ∧
    (lined State.reset [answer (zeros 15 ++ [1])]).entDraw 16 =
      (some (zeros 15 ++ [1]), State.reset) ∧
    ¬(le64 (zeros 15 ++ [1]) = 0 ∧ le64 ((zeros 15 ++ [1]).drop 8) = 0) := by
  decide +kernel

theorem meets_DrawX128Words : (withXo 0 1).xo = some ⟨0, 1⟩ ∧ (withSm 1).xo = none := by
  decide

theorem meets_FillX128Bytes : (withXo 0 1).xo = some ⟨0, 1⟩ ∧ State.reset.xo = none := by
  decide

theorem meets_JumpX128CommandIsDraws : (withXo 0 1).xo = some ⟨0, 1⟩ ∧ State.reset.xo = none := by
  decide

theorem meets_SeedX1024FromBytes : (zeros 128).length = 128 ∧ ramp ≠ noWords ∧ noWords = words16 (fun _ => 0) := by
  decide +kernel

theorem meets_SeedX1024FromInteger : (zeros 8).length = 8 := by
  decide

theorem meets_SeedX1024FromEntropy : (lined State.reset [.fail]).entDraw 128 = (none, State.reset) ∧
    (lined State.reset [answer []]).entDraw 128 = (some (zeros 128), State.reset) ∧
    words16 (fun i => le64 ((zeros 128).drop (8 * i.toNat))) = words16 (fun _ => 0) ∧
    (lined State.reset [answer (zeros 127 ++ [1])]).entDraw 128 =
      (some (zeros 127 ++ [1]), State.reset) ∧
    words16 (fun i => le64 ((zeros 127 ++ [1]).drop (8 * i.toNat))) ≠ words16 (fun _ => 0) := by
  decide +kernel

theorem meets_DrawX1024Words : (withXs 15).xs = some ⟨ramp, 15⟩ ∧ (withSm 1).xs = none := by
  decide +kernel

theorem meets_FillX1024Bytes : (withXs 15).xs = some ⟨ramp, 15⟩ ∧ State.reset.xs = none := by
  decide +kernel

theorem meets_JumpX1024CommandIsDraws : (withXs 3).xs = some ⟨ramp, 3⟩ ∧ State.reset.xs = none ∧
    (withXs 3).strides.x1024 = Config.defaultStrides.x1024 := by
  decide +kernel

theorem meets_X1024RelativeWordsDecide : ∀ i, (Xs.mk ramp 0).word (0 + i) =
    (Xs.mk (words16 fun i => BitVec.ofNat 64 ((i - 5).toNat + 1)) 5).word (5 + i) := by
  decide +kernel

theorem meets_FillSplitsAtMultiplesOfEight : 8 % 8 = 0 ∧ 0 % 8 = 0 ∧ fill Sm.draw 9 ⟨0⟩ =
    ((fill Sm.draw 1 (fill Sm.draw 8 ⟨0⟩).1).1,
      (fill Sm.draw 8 ⟨0⟩).2 ++ (fill Sm.draw 1 (fill Sm.draw 8 ⟨0⟩).1).2) := by
  decide +kernel

theorem meets_FillMatchesNext : ((Instr.fillSm64 8, Instr.next64Sm64) : Instr × Instr) ∈
    [((.fillSm64 8, .next64Sm64) : Instr × Instr), (.fillX128 4, .next32X128)] := by
  decide

theorem meets_CommandsKeepOtherEngines : (exec (.seedbSm64 3) (withXo 1 0)) =
      .next (((withXo 1 0).setSm ⟨3⟩).respond .done) ∧ Engine.x128 ≠ (Instr.seedbSm64 3).engine := by
  refine ⟨?_, ?_⟩ <;> first | rfl | decide

theorem meets_CommandDependsOnItsEngineOnly : (withSm 3).sameEngine ((withSm 3).setXo ⟨1, 2⟩) (Instr.engine .next64Sm64) ∧
    (withSm 3).entropy = ((withSm 3).setXo ⟨1, 2⟩).entropy ∧
    (withSm 3).entropyIndex = ((withSm 3).setXo ⟨1, 2⟩).entropyIndex ∧
    (withSm 3).strides = ((withSm 3).setXo ⟨1, 2⟩).strides :=
  ⟨rfl, rfl, rfl, rfl⟩

theorem meets_FailedFrameChangesNoEngine : (stateOf (step (waiting [.frame ⟨0x15#32, []⟩]))).map State.outbox =
      some ((waiting [.frame ⟨0x15#32, []⟩]).outbox ++ [⟨.notSeeded, none, none⟩]) ∧
    (stateOf (step (waiting [.frame ⟨0, []⟩]))).map State.outbox =
      some ((waiting [.frame ⟨0, []⟩]).outbox ++ [⟨.illegalCommand, none, none⟩]) ∧
    Status.notSeeded ≠ .ok ∧ Status.illegalCommand ≠ .ok ∧
    (stateOf (step (lined (waiting [.frame ⟨0x13#32, []⟩]) [answer []]))).map
      (fun t => t.redraw.isSome) = some true := by
  decide +kernel

theorem meets_OneResponsePerFrame : exec (.seediSm64 3) State.reset = .next ((State.reset.setSm ⟨3⟩).respond .done) ∧
    exec .seedeX128 (lined State.reset [answer []]) = .next (State.reset.setRedraw (some .x128)) := by
  constructor
  · rfl
  · exact congrArg Host.Outcome.next (by decide +kernel)

theorem meets_ValidBitChanges : step { withSm 3 with inbox := [.reset] } = .next State.reset ∧
    ({ withSm 3 with inbox := [.reset] } : State).valid .sm64 = true ∧
    State.reset.valid .sm64 = false ∧
    exec (.seediSm64 3) State.reset = .next ((State.reset.setSm ⟨3⟩).respond .done) ∧
    ((State.reset.setSm ⟨3⟩).respond .done).valid .sm64 = true :=
  ⟨rfl, rfl, rfl, rfl, rfl⟩

theorem meets_InvalidSeedOnlyForZeroSeed : exec (.seedbX128 0 0) State.reset = .next (State.reset.raise .invalidSeed) ∧
    exec (.seedbX128 0 1) State.reset = .next ((State.reset.setXo ⟨0, 1⟩).respond .done) ∧
    (State.reset.raise .invalidSeed).outbox = State.reset.outbox ++ [.failed .invalidSeed] ∧
    ((State.reset.setXo ⟨0, 1⟩).respond .done).outbox = State.reset.outbox ++ [.done] :=
  ⟨rfl, rfl, rfl, rfl⟩

theorem meets_SeededEngineNeverFails : (Instr.jumpX1024).needsSeeded = true ∧ (withXs 3).valid (Instr.engine .jumpX1024) = true ∧
    (Instr.fillSm64 0).needsSeeded = true ∧ (withSm 0).valid (Instr.engine (.fillSm64 0)) = true := by
  decide

theorem meets_UnseededEngineAnswersNotSeeded : (Instr.fillX128 0).needsSeeded = true ∧
    (withSm 1).valid (Instr.engine (.fillX128 0)) = false := by
  decide

theorem meets_EntropyDrawAnswers : 0 ≤ 128 ∧ 128 ≤ 128 ∧ (zeros 128).length = 128 ∧
    (lined State.reset [.fail, answer [1]]).entropy = .fail :: [answer [1]] ∧
    State.reset.entropy = [] := by
  decide +kernel

theorem meets_RedrawEndsAtFirstNonZeroSeed : (lined (State.reset.setRedraw (some .x128)) (List.replicate 2 (.ok (Vector.replicate 128 0)) ++
      .ok (Vector.replicate 128 1) :: [])).redraw = some .x128 ∧
    (lined (State.reset.setRedraw (some .x1024)) (List.replicate 2 (.ok (Vector.replicate 128 0)) ++
      .ok (Vector.replicate 128 1) :: [])).redraw = some .x1024 ∧
    ¬(le64 ((Vector.replicate 128 (1 : Byte)).toList.take 16) = 0 ∧
      le64 (((Vector.replicate 128 (1 : Byte)).toList.take 16).drop 8) = 0) ∧
    words16 (fun i => le64 ((Vector.replicate 128 (1 : Byte)).toList.drop (8 * i.toNat))) ≠
      words16 (fun _ => 0) := by
  decide +kernel

theorem meets_FramesAreAnsweredInOrder : (waiting ([⟨0x05#32, []⟩, ⟨0, []⟩].map HostInput.frame ++ [.reset])).redraw = none ∧
    ∀ f ∈ [(⟨0x05#32, []⟩ : Frame), ⟨0, []⟩],
      decode f ≠ .command .seedeX128 ∧ decode f ≠ .command .seedeX1024 := by
  decide +kernel

theorem meets_StreamsAreIndependent : ∀ i ∈ [Instr.seedbSm64 1, .seedeX128, .seedeX1024, .next64Sm64],
    i.engine = .sm64 → i.drawsEntropy = false := by
  decide

/-- ValidBitChanges, second clause: a frame from the inbox, and a SEEDE still executing. -/
theorem meets_ValidBitChanges_step :
    (waiting [.frame ⟨0x13#32, []⟩]).valid .x128 = false ∧
    (stateOf (step (lined (waiting [.frame ⟨0x13#32, []⟩]) [answer [1]]))).map
      (fun t => t.valid .x128) = some true ∧
    (lined (State.reset.setRedraw (some .x1024)) [answer [1]]).valid .x1024 = false ∧
    (stateOf (step (lined (State.reset.setRedraw (some .x1024)) [answer [1]]))).map
      (fun t => t.valid .x1024) = some true := by
  decide +kernel

/-- A state with every engine seeded and a response sent meets the invariant. -/
theorem meets_StepKeepsInvariant :
    (((withXs 3).setXo ⟨0, 1⟩).respond (.failed .notSeeded)).Inv ∧
    step (((withXs 3).setXo ⟨0, 1⟩).respond (.failed .notSeeded)) =
      .next (((withXs 3).setXo ⟨0, 1⟩).respond (.failed .notSeeded)) := by
  refine ⟨⟨?_, ?_, ?_⟩, rfl⟩
  · intro e h
    cases h
    decide
  · intro e h
    cases h
    decide +kernel
  · intro r h
    rw [List.mem_singleton.mp h]
    decide

end Sys2Proof.Tests
end

/-! ## Byte order (00_scope.md rule R9) -/

namespace Sys2Proof

/-- R9's sum, for the eight bytes LE64 reads. -/
theorem le64_toNat_eq_sum (b0 b1 b2 b3 b4 b5 b6 b7 : Byte) :
    (le64 [b0, b1, b2, b3, b4, b5, b6, b7]).toNat =
      b0.toNat + b1.toNat * 2 ^ 8 + b2.toNat * 2 ^ 16 + b3.toNat * 2 ^ 24 + b4.toNat * 2 ^ 32 +
        b5.toNat * 2 ^ 40 + b6.toNat * 2 ^ 48 + b7.toNat * 2 ^ 56 := by
  have hlt := leNat_lt [b0, b1, b2, b3, b4, b5, b6, b7]
  simp only [leNat, List.length_cons, List.length_nil] at hlt
  simp only [le64, List.take, leNat, BitVec.toNat_ofNat]
  omega

@[simp] theorem le64_bytes64 (w : Word) : le64 (bytes64 w) = w := by
  simpa using le64_bytes64_append w []

/-- Byte `k` of a little-endian number is its digit `k` to the base 256. -/
theorem leNat_digit (b : List Byte) (k : Nat) : leNat b / 256 ^ k % 256 = (b.getD k 0).toNat := by
  induction b generalizing k with
  | nil => simp [leNat]
  | cons a b ih =>
    have ha := a.isLt
    cases k with
    | zero => simp only [leNat, List.getD_cons_zero]; omega
    | succ k =>
      have htail : leNat (a :: b) / 256 = leNat b := by simp only [leNat]; omega
      rw [Nat.pow_succ', ← Nat.div_div_eq_div_mul, htail, ih, List.getD_cons_succ]

/-- The byte that Bytes64 puts at `k` is byte `k` of the string LE64 has read. -/
theorem le64_byte (b : List Byte) (hb : b.length = 8) (k : Nat) :
    (le64 b).extractLsb' (8 * k) 8 = b.getD k 0 := by
  have hlt := leNat_lt b
  rw [hb] at hlt
  have hle : (le64 b).toNat = leNat b := by
    rw [le64, List.take_of_length_le hb.le, BitVec.toNat_ofNat]
    omega
  apply BitVec.eq_of_toNat_eq
  rw [BitVec.extractLsb'_toNat, hle, Nat.shiftRight_eq_div_pow, Nat.pow_mul]
  exact leNat_digit b k

/-- The converse of `le64_bytes64`, for strings of the length LE64 reads. -/
theorem bytes64_le64 (b : List Byte) (hb : b.length = 8) : bytes64 (le64 b) = b := by
  have hbytes : bytes64 (le64 b) =
      (List.range 8).map fun k => (le64 b).extractLsb' (8 * k) 8 := rfl
  apply List.ext_getElem (by rw [hb]; rfl)
  intro k _ hk
  simp only [hbytes, List.getElem_map, List.getElem_range, le64_byte b hb,
    List.getD_eq_getElem _ _ hk]

/-- Settles O6: the sum, and the two inverse laws from the digits of a little-endian number. -/
theorem littleEndianRoundTrip : Obligations.LittleEndianRoundTrip :=
  ⟨le64_toNat_eq_sum, le64_bytes64, bytes64_le64⟩

end Sys2Proof

/-! ## What a command can see and change (00_scope.md rules R6, R11, R27, R28) -/

namespace Sys2Proof.Machine

/-- The one form of the four operations of the contract: NotSeeded for an engine without words, else
its new state written back and a response that depends on the old one (R160, R204). -/
def contract {E : Type} (f : E → E × Response) (e : Option E) (put : E → State) (s : State) : State :=
  match e with
  | none => s.raise .notSeeded
  | some c => (put (f c).1).respond (f c).2

section Contract

variable {E : Type} (draw : E → E × Word) (jump : E → E) (e : Option E) (put : E → State) (s : State)

theorem outNext64_eq_contract :
    outNext64 draw e put s = contract (fun c => ((draw c).1, .word64 (draw c).2)) e put s := by
  cases e <;> rfl

theorem outNext32_eq_contract :
    outNext32 draw e put s = contract (fun c => ((draw c).1, .word32 (lo32 (draw c).2))) e put s := by
  cases e <;> rfl

theorem outFill_eq_contract (n : Nat) : outFill draw n e put s =
    contract (fun c => ((fill draw n c).1, .filled (fill draw n c).2)) e put s := by
  cases e <;> rfl

theorem outJump_eq_contract :
    outJump jump e put s = contract (fun c => (jump c, .done)) e put s := by
  cases e <;> rfl

end Contract

/-- SEEDE.SM64 after its draw `a` (R105): fail, or seed with whatever word was drawn. -/
def State.seedSmFrom (a : Option (List Byte)) (s : State) : State :=
  match a with
  | none => s.raise .entropySourceUnavailable
  | some b => (s.setSm ⟨le64 b⟩).respond .done

theorem exec_seedeSm64_eq_seedSmFrom (s : State) :
    exec .seedeSm64 s = .next ((s.entDraw 8).2.seedSmFrom (s.entDraw 8).1) :=
  exec_seedeSm64 s _ _ rfl

/-! ### No step changes the strides -/

section Strides

variable (s : State)

theorem contract_strides {E : Type} (f : E → E × Response) (e : Option E) (put : E → State)
    (hput : ∀ c, (put c).strides = s.strides) : (contract f e put s).strides = s.strides := by
  cases e with
  | none => rfl
  | some c => exact hput _

@[simp] theorem contract_setSm_strides (f : Sm → Sm × Response) (e : Option Sm) :
    (contract f e s.setSm s).strides = s.strides :=
  contract_strides s f e s.setSm fun _ => rfl

@[simp] theorem contract_setXo_strides (f : Xo → Xo × Response) (e : Option Xo) :
    (contract f e s.setXo s).strides = s.strides :=
  contract_strides s f e s.setXo fun _ => rfl

@[simp] theorem contract_setXs_strides (f : Xs → Xs × Response) (e : Option Xs) :
    (contract f e s.setXs s).strides = s.strides :=
  contract_strides s f e s.setXs fun _ => rfl

@[simp] theorem State.seedSmFrom_strides (a : Option (List Byte)) :
    (s.seedSmFrom a).strides = s.strides := by
  cases a <;> rfl

@[simp] theorem State.seedXo_strides (e : Xo) : (s.seedXo e).strides = s.strides := by
  rcases s.seedXo_cases e with ⟨-, h⟩ | ⟨-, h⟩ <;> rw [h] <;> rfl

@[simp] theorem State.seedXs_strides (ws : Vector Word 16) : (s.seedXs ws).strides = s.strides := by
  rcases s.seedXs_cases ws with ⟨-, h⟩ | ⟨-, h⟩ <;> rw [h] <;> rfl

@[simp] theorem State.seedXoFrom_strides (a : Option (List Byte)) :
    (s.seedXoFrom a).strides = s.strides := by
  rcases s.seedXoFrom_cases a with ⟨-, h⟩ | ⟨_, -, -, h⟩ | ⟨_, -, -, h⟩ <;> rw [h] <;> rfl

@[simp] theorem State.seedXsFrom_strides (a : Option (List Byte)) :
    (s.seedXsFrom a).strides = s.strides := by
  rcases s.seedXsFrom_cases a with ⟨-, h⟩ | ⟨_, -, -, h⟩ | ⟨_, -, -, h⟩ <;> rw [h] <;> rfl

@[simp] theorem State.fetch_strides : s.fetch.2.strides = s.strides := by
  unfold State.fetch
  split
  · rfl
  · rfl
  · split <;> rfl

/-- Every command has a next state, and keeps the strides. -/
theorem exec_next_keeps_strides (i : Instr) : ∃ t, exec i s = .next t ∧ t.strides = s.strides := by
  cases i with
  | seedbSm64 w => exact ⟨_, exec_seedbSm64 s w, rfl⟩
  | seediSm64 v => exact ⟨_, exec_seediSm64 s v, rfl⟩
  | seedeSm64 => exact ⟨_, exec_seedeSm64_eq_seedSmFrom s, by simp⟩
  | seedbX128 w0 w1 => exact ⟨_, exec_seedbX128 s w0 w1, by simp⟩
  | seediX128 v => exact ⟨_, exec_seediX128 s v, by simp⟩
  | seedeX128 => exact ⟨_, exec_seedeX128 s, by simp⟩
  | seeddX128 => exact ⟨_, exec_seeddX128 s, rfl⟩
  | seedbX1024 ws => exact ⟨_, exec_seedbX1024 s ws, by simp⟩
  | seediX1024 v => exact ⟨_, exec_seediX1024 s v, by simp⟩
  | seedeX1024 => exact ⟨_, exec_seedeX1024 s, by simp⟩
  | next64Sm64 | next32Sm64 | fillSm64 len | jumpSm64 =>
    simp [exec_next64Sm64, exec_next32Sm64, exec_fillSm64, exec_jumpSm64,
      outNext64_eq_contract, outNext32_eq_contract, outFill_eq_contract, outJump_eq_contract]
  | next64X128 | next32X128 | fillX128 len | jumpX128 =>
    simp [exec_next64X128, exec_next32X128, exec_fillX128, exec_jumpX128,
      outNext64_eq_contract, outNext32_eq_contract, outFill_eq_contract, outJump_eq_contract]
  | next64X1024 | next32X1024 | fillX1024 len | jumpX1024 =>
    simp [exec_next64X1024, exec_next32X1024, exec_fillX1024, exec_jumpX1024,
      outNext64_eq_contract, outNext32_eq_contract, outFill_eq_contract, outJump_eq_contract]

end Strides

/-- Settles O13: by the work the step takes; only a command is more than a fixed change of state. -/
theorem stepAlwaysAnswersNext : Obligations.StepAlwaysAnswersNext := by
  intro s
  rw [step_of_fetch s s.fetch.2 s.fetch.1 rfl, ← s.fetch_strides]
  cases s.fetch.1 with
  | idle => exact ⟨_, rfl, rfl⟩
  | reset => exact ⟨_, rfl, rfl⟩
  | illegal => exact ⟨_, rfl, rfl⟩
  | run i => exact exec_next_keeps_strides _ i

/-! ### Two runs of a command whose engine, entropy source and strides agree -/

/-- The two blocks `s` and `s'` look the same to a command of engine `e`, and have sent the same
responses since their outboxes were `o` and `o'`. -/
structure Agree (e : Engine) (o o' : List Response) (s s' : State) : Prop where
  engine : s.sameEngine s' e
  sent : ∃ r, s.outbox = o ++ r ∧ s'.outbox = o' ++ r
  entropy : s.entropy = s'.entropy
  entropyIndex : s.entropyIndex = s'.entropyIndex
  strides : s.strides = s'.strides

section Agree

variable {e : Engine} {o o' : List Response} {s s' : State}

theorem Agree.respond (h : Agree e o o' s s') (r : Response) :
    Agree e o o' (s.respond r) (s'.respond r) where
  engine := h.engine
  sent := by
    obtain ⟨sent, hs, hs'⟩ := h.sent
    exact ⟨sent ++ [r], by simp [hs], by simp [hs']⟩
  entropy := h.entropy
  entropyIndex := h.entropyIndex
  strides := h.strides

theorem Agree.raise (h : Agree e o o' s s') (st : Status) :
    Agree e o o' (s.raise st) (s'.raise st) :=
  h.respond _

theorem Agree.setRedraw (h : Agree e o o' s s') (r : Option Redraw) :
    Agree e o o' (s.setRedraw r) (s'.setRedraw r) :=
  ⟨h.engine, h.sent, h.entropy, h.entropyIndex, h.strides⟩

theorem Agree.setSm (h : Agree .sm64 o o' s s') (c : Sm) :
    Agree .sm64 o o' (s.setSm c) (s'.setSm c) :=
  ⟨rfl, h.sent, h.entropy, h.entropyIndex, h.strides⟩

theorem Agree.setXo (h : Agree .x128 o o' s s') (c : Xo) :
    Agree .x128 o o' (s.setXo c) (s'.setXo c) :=
  ⟨rfl, h.sent, h.entropy, h.entropyIndex, h.strides⟩

theorem Agree.setXs (h : Agree .x1024 o o' s s') (c : Xs) :
    Agree .x1024 o o' (s.setXs c) (s'.setXs c) :=
  ⟨rfl, h.sent, h.entropy, h.entropyIndex, h.strides⟩

/-- Blocks with the same entropy source draw the same answer, and have the same source after it. -/
theorem Agree.entDraw (h : Agree e o o' s s') (n : Nat) :
    (s.entDraw n).1 = (s'.entDraw n).1 ∧ Agree e o o' (s.entDraw n).2 (s'.entDraw n).2 := by
  obtain ⟨hengine, hsent, hentropy, hindex, hstrides⟩ := h
  unfold State.entDraw
  rw [hentropy, hindex]
  cases s'.entropy with
  | nil => exact ⟨rfl, hengine, hsent, rfl, rfl, hstrides⟩
  | cons a rest => exact ⟨rfl, hengine, hsent, rfl, rfl, hstrides⟩

/-- An operation of the contract, from the same words of the engine. -/
theorem Agree.contract {E : Type} (h : Agree e o o' s s') (f : E → E × Response) {c c' : Option E}
    (hc : c = c') {put put' : E → State} (hput : ∀ d, Agree e o o' (put d) (put' d)) :
    Agree e o o' (contract f c put s) (contract f c' put' s') := by
  subst hc
  cases c with
  | none => exact h.raise _
  | some d => exact (hput _).respond _

theorem Agree.seedSmFrom (h : Agree .sm64 o o' s s') (a : Option (List Byte)) :
    Agree .sm64 o o' (s.seedSmFrom a) (s'.seedSmFrom a) := by
  cases a with
  | none => exact h.raise _
  | some b => exact (h.setSm _).respond _

theorem Agree.seedXo (h : Agree .x128 o o' s s') (c : Xo) :
    Agree .x128 o o' (s.seedXo c) (s'.seedXo c) := by
  unfold State.seedXo
  split
  · exact h.raise _
  · exact (h.setXo _).respond _

theorem Agree.seedXs (h : Agree .x1024 o o' s s') (ws : Vector Word 16) :
    Agree .x1024 o o' (s.seedXs ws) (s'.seedXs ws) := by
  unfold State.seedXs
  split
  · exact h.raise _
  · exact (h.setXs _).respond _

theorem Agree.seedXoFrom (h : Agree .x128 o o' s s') (a : Option (List Byte)) :
    Agree .x128 o o' (s.seedXoFrom a) (s'.seedXoFrom a) := by
  cases a with
  | none => exact (h.setRedraw _).raise _
  | some b =>
    unfold State.seedXoFrom
    dsimp only
    split
    · exact h.setRedraw _
    · exact ((h.setRedraw _).setXo _).respond _

theorem Agree.seedXsFrom (h : Agree .x1024 o o' s s') (a : Option (List Byte)) :
    Agree .x1024 o o' (s.seedXsFrom a) (s'.seedXsFrom a) := by
  cases a with
  | none => exact (h.setRedraw _).raise _
  | some b =>
    unfold State.seedXsFrom
    dsimp only
    split
    · exact h.setRedraw _
    · exact ((h.setRedraw _).setXs _).respond _

/-- The seeding of an engine by its entropy draw, from blocks that draw the same answer. -/
theorem Agree.seededByDraw (h : Agree e o o' s s') (n : Nat) {seed : Option (List Byte) → State → State}
    (hseed : ∀ a {t t'}, Agree e o o' t t' → Agree e o o' (seed a t) (seed a t')) :
    Agree e o o' (seed (s.entDraw n).1 (s.entDraw n).2) (seed (s'.entDraw n).1 (s'.entDraw n).2) := by
  obtain ⟨hanswer, hagree⟩ := h.entDraw n
  rw [hanswer]
  exact hseed _ hagree

end Agree

/-- Two blocks that look the same to a command still do after it (R11, R27, R28). -/
theorem exec_agree (i : Instr) {o o' : List Response} {s s' : State}
    (h : Agree i.engine o o' s s') :
    ∃ t t', exec i s = .next t ∧ exec i s' = .next t' ∧ Agree i.engine o o' t t' := by
  cases i with
  | seedbSm64 w => exact ⟨_, _, exec_seedbSm64 s w, exec_seedbSm64 s' w, (h.setSm _).respond _⟩
  | seediSm64 v => exact ⟨_, _, exec_seediSm64 s v, exec_seediSm64 s' v, (h.setSm _).respond _⟩
  | seedeSm64 => exact ⟨_, _, exec_seedeSm64_eq_seedSmFrom s, exec_seedeSm64_eq_seedSmFrom s',
      h.seededByDraw 8 fun a _ _ ht => ht.seedSmFrom a⟩
  | seedbX128 w0 w1 => exact ⟨_, _, exec_seedbX128 s w0 w1, exec_seedbX128 s' w0 w1, h.seedXo _⟩
  | seediX128 v => exact ⟨_, _, exec_seediX128 s v, exec_seediX128 s' v, h.seedXo _⟩
  | seedeX128 => exact ⟨_, _, exec_seedeX128 s, exec_seedeX128 s',
      h.seededByDraw 16 fun a _ _ ht => ht.seedXoFrom a⟩
  | seeddX128 => exact ⟨_, _, exec_seeddX128 s, exec_seeddX128 s', (h.setXo _).respond _⟩
  | seedbX1024 ws => exact ⟨_, _, exec_seedbX1024 s ws, exec_seedbX1024 s' ws, h.seedXs _⟩
  | seediX1024 v => exact ⟨_, _, exec_seediX1024 s v, exec_seediX1024 s' v, h.seedXs _⟩
  | seedeX1024 => exact ⟨_, _, exec_seedeX1024 s, exec_seedeX1024 s',
      h.seededByDraw 128 fun a _ _ ht => ht.seedXsFrom a⟩
  | next64Sm64 | next32Sm64 | fillSm64 len | jumpSm64 =>
    simp only [exec_next64Sm64, exec_next32Sm64, exec_fillSm64, exec_jumpSm64, h.strides,
      outNext64_eq_contract, outNext32_eq_contract, outFill_eq_contract, outJump_eq_contract]
    exact ⟨_, _, rfl, rfl, h.contract _ h.engine h.setSm⟩
  | next64X128 | next32X128 | fillX128 len | jumpX128 =>
    simp only [exec_next64X128, exec_next32X128, exec_fillX128, exec_jumpX128, h.strides,
      outNext64_eq_contract, outNext32_eq_contract, outFill_eq_contract, outJump_eq_contract]
    exact ⟨_, _, rfl, rfl, h.contract _ h.engine h.setXo⟩
  | next64X1024 | next32X1024 | fillX1024 len | jumpX1024 =>
    simp only [exec_next64X1024, exec_next32X1024, exec_fillX1024, exec_jumpX1024, h.strides,
      outNext64_eq_contract, outNext32_eq_contract, outFill_eq_contract, outJump_eq_contract]
    exact ⟨_, _, rfl, rfl, h.contract _ h.engine h.setXs⟩

/-- Settles O47: two blocks with nothing sent yet agree, and `exec` keeps that. -/
theorem commandDependsOnItsEngineOnly : Obligations.CommandDependsOnItsEngineOnly := by
  intro i s s' hengine hentropy hindex hstrides
  have hstart : Agree i.engine s.outbox s'.outbox s s' :=
    ⟨hengine, ⟨[], by simp, by simp⟩, hentropy, hindex, hstrides⟩
  obtain ⟨t, t', ht, ht', hagree⟩ := exec_agree i hstart
  obtain ⟨sent, hout, hout'⟩ := hagree.sent
  exact ⟨t, t', sent, ht, ht', hagree.engine, hout, hout', hagree.entropy, hagree.entropyIndex⟩

/-! ## The open parameter UNSEEDED_X128 (00_scope.md rule R6) -/

/-- The index counts from 0 to 2^128 - 2, so its successor does not wrap to zero. -/
theorem unseededNumber_toNat :
    Config.unseededNumber.toNat = Config.unseededIndex.val + 1 := by
  have hlt := Config.unseededIndex.isLt
  rw [Config.unseededNumber, BitVec.toNat_ofNat]
  omega

theorem unseededX128_ne_zero : Config.unseededX128 ≠ (0, 0) := by
  intro hpair
  obtain ⟨hlow, hhigh⟩ := Prod.mk.inj hpair
  have hlow := congrArg BitVec.toNat hlow
  have hhigh := congrArg BitVec.toNat hhigh
  simp only [BitVec.extractLsb'_toNat, Nat.shiftRight_eq_div_pow, unseededNumber_toNat,
    BitVec.ofNat_eq_ofNat, BitVec.toNat_ofNat] at hlow hhigh
  have hlt := Config.unseededIndex.isLt
  omega

/-- Settles O26: the range of the free index keeps the pair from (0, 0). -/
theorem seedX128Unseeded : Obligations.SeedX128Unseeded :=
  ⟨unseededX128_ne_zero, exec_seeddX128⟩

end Sys2Proof.Machine

/-! ## Zero words through draws and jumps (10_state.md rule R29) -/

namespace Sys2Proof.Machine

open Laws

theorem xor_shiftRight_eq_zero_iff (x : Word) : x ^^^ (x >>> 11) = 0 ↔ x = 0 := by
  refine ⟨fun h => ?_, fun h => by rw [h]; rfl⟩
  have hx := congrArg BitVec.toNat (BitVec.xor_eq_zero_iff.mp h)
  rw [BitVec.toNat_ushiftRight, Nat.shiftRight_eq_div_pow] at hx
  exact BitVec.eq_of_toNat_eq (by simp; omega)

/-- A word that is its own left shift by 31 is so by 93. -/
theorem xor_shiftLeft_eq_zero_iff (x : Word) : x ^^^ (x <<< 31) = 0 ↔ x = 0 := by
  refine ⟨fun h => ?_, fun h => by rw [h]; rfl⟩
  have hx : x = x <<< 31 := by rwa [BitVec.ofNat_eq_ofNat, BitVec.xor_eq_zero_iff] at h
  rw [hx, hx, hx, ← BitVec.shiftLeft_add, ← BitVec.shiftLeft_add]
  exact BitVec.shiftLeft_eq_zero (by decide)

theorem rotateRight_rotateLeft (x : Word) (k : Nat) : (x.rotateLeft k).rotateRight k = x := by
  ext i hi
  simp only [BitVec.getElem_rotateRight, BitVec.getElem_rotateLeft]
  split <;> split <;> (congr 1; omega)

theorem rotateLeft_eq_zero_iff (x : Word) (k : Nat) : x.rotateLeft k = 0 ↔ x = 0 := by
  constructor
  · intro h
    rw [← rotateRight_rotateLeft x k, h]
    ext i hi
    simp [BitVec.getElem_rotateRight]
  · rintro rfl
    ext i hi
    simp [BitVec.getElem_rotateLeft]

/-- Only the zero pair is drawn to the zero pair: the new second word says that the old words are
equal, and then the new first word is a rotation of the old one (R29). -/
@[simp] theorem Xo.draw_isZero (e : Xo) : e.draw.1.isZero = e.isZero := by
  rw [Bool.eq_iff_iff, Xo.isZero_iff, Xo.isZero_iff]
  constructor
  · rintro ⟨h0, h1⟩
    have ht : e.s1 ^^^ e.s0 = 0 := (rotateLeft_eq_zero_iff _ 36).mp h1
    have hrot : e.s0.rotateLeft 55 = 0 := by simpa [Xo.draw, ht] using h0
    have hs0 : e.s0 = 0 := (rotateLeft_eq_zero_iff _ 55).mp hrot
    exact ⟨hs0, by simpa [hs0] using ht⟩
  · rintro ⟨h0, h1⟩
    simp [Xo.draw, h0, h1]

theorem Xs.isZero_iff_word (e : Xs) : e.isZero = true ↔ ∀ i, e.word i = 0 := by
  rw [Xs.isZero_iff_words]
  constructor
  · intro h i
    rw [Xs.word, h, words16_get]
  · exact fun h => words_ext _ _ fun i => by rw [words16_get]; exact h i

/-- Only the zero words are drawn to zero words: the word at the old pointer is not written, so it is
zero, and then the new word tells that the word it replaces was zero (R29). -/
@[simp] theorem Xs.draw_isZero (e : Xs) : e.draw.1.isZero = e.isZero := by
  rw [Bool.eq_iff_iff, Xs.isZero_iff_word, Xs.isZero_iff_word]
  constructor
  · intro h
    have hkept : ∀ i, i ≠ e.p + 1 → e.word i = 0 := fun i hi => by
      rw [← h i, xs_draw_word, if_neg hi]
    have hold : e.word e.p = 0 := hkept _ (by simp)
    have hnew : e.word (e.p + 1) = 0 := by
      have hn := h (e.p + 1)
      rw [xs_draw_word, if_pos rfl, hold] at hn
      rw [← xor_shiftLeft_eq_zero_iff, ← xor_shiftRight_eq_zero_iff]
      simpa using hn
    intro i
    by_cases hi : i = e.p + 1
    · rw [hi, hnew]
    · exact hkept i hi
  · intro h i
    rw [xs_draw_word]
    simp [h]

/-- What each draw keeps, every number of draws keeps. -/
theorem steps_keep {E α : Type} {draw : E → E × Word} {p : E → α} (h : ∀ c, p (draw c).1 = p c)
    (k : Nat) (c : E) : p (steps draw k c) = p c := by
  induction k generalizing c with
  | zero => rfl
  | succ k ih => rw [steps_succ, ih, h]

theorem fill_state {E : Type} (draw : E → E × Word) (n : Nat) (c : E) :
    (fill draw n c).1 = steps draw ((n + 7) / 8) c :=
  fillLoop_state draw _ n c

/-- The polynomial method of R175 is the iterated draw of R170. -/
theorem Xo.jump_eq_steps (J : Nat) (e : Xo) : e.jump J = steps Xo.draw J e := by
  rw [Xo.jump, xo_applyPoly, jumpPolyX128_acts, steps_eq_iterate]
  exact xoGf2.zero_add _

theorem Xs.steps_pointer (k : Nat) (e : Xs) : (steps Xs.draw k e).p = e.p + BitVec.ofNat 4 k := by
  induction k generalizing e with
  | zero => simp [steps_zero]
  | succ k ih =>
    rw [steps_succ, ih, xs_draw_pointer, BitVec.add_assoc, Nat.add_comm k, BitVec.ofNat_add]
    rfl

/-- The polynomial method of R176 is the iterated draw of R170. -/
theorem Xs.jump_eq_steps (J : Nat) (e : Xs) : e.jump J = steps Xs.draw J e := by
  have hwords : Xs.applyPoly 1024 (jumpPolyX1024 J) e (words16 fun _ => 0) =
      (steps Xs.draw J e).relative := by
    rw [xs_applyPoly, jumpPolyX1024_acts, relative_steps]
    exact wordsGf2.zero_add _
  rw [Xs.jump, hwords, ← Xs.steps_pointer, ofRelative_relative]

@[simp] theorem Xo.fill_isZero (n : Nat) (e : Xo) : (fill Xo.draw n e).1.isZero = e.isZero := by
  rw [fill_state, steps_keep Xo.draw_isZero]

@[simp] theorem Xs.fill_isZero (n : Nat) (e : Xs) : (fill Xs.draw n e).1.isZero = e.isZero := by
  rw [fill_state, steps_keep Xs.draw_isZero]

@[simp] theorem Xo.jump_isZero (J : Nat) (e : Xo) : (e.jump J).isZero = e.isZero := by
  rw [Xo.jump_eq_steps, steps_keep Xo.draw_isZero]

@[simp] theorem Xs.jump_isZero (J : Nat) (e : Xs) : (e.jump J).isZero = e.isZero := by
  rw [Xs.jump_eq_steps, steps_keep Xs.draw_isZero]

end Sys2Proof.Machine

/-! ## The engines of a state, read and written by name (10_state.md rules R20, R24) -/

namespace Sys2Proof.Machine

/-- What an engine holds while its valid bit is 1. -/
inductive EngineState where
  | sm64 (c : Sm)
  | x128 (c : Xo)
  | x1024 (c : Xs)

/-- The forbidden states of R22 and R23; SM64 has none (R21). -/
def EngineState.isZero : EngineState → Bool
  | .sm64 _ => false
  | .x128 c => c.isZero
  | .x1024 c => c.isZero

@[simp] theorem EngineState.isZero_sm64 (c : Sm) : (EngineState.sm64 c).isZero = false := rfl
@[simp] theorem EngineState.isZero_x128 (c : Xo) : (EngineState.x128 c).isZero = c.isZero := rfl
@[simp] theorem EngineState.isZero_x1024 (c : Xs) : (EngineState.x1024 c).isZero = c.isZero := rfl

/-- What the engines hold, engine by engine. -/
def State.engines (s : State) : Engine → Option EngineState
  | .sm64 => s.sm.map .sm64
  | .x128 => s.xo.map .x128
  | .x1024 => s.xs.map .x1024

theorem State.valid_eq (s : State) (e : Engine) : s.valid e = (s.engines e).isSome := by
  cases e <;> simp [State.valid, State.engines, State.smValid, State.xoValid, State.xsValid]

theorem State.valid_congr {s t : State} (h : t.engines = s.engines) (e : Engine) :
    t.valid e = s.valid e := by
  rw [State.valid_eq, State.valid_eq, h]

theorem State.engines_reset : State.reset.engines = fun _ => none := by
  funext e; cases e <;> rfl

theorem State.sameEngine_iff (s t : State) (e : Engine) :
    s.sameEngine t e ↔ s.engines e = t.engines e := by
  cases e with
  | sm64 => exact (Option.map_inj_right fun _ _ => EngineState.sm64.inj).symm
  | x128 => exact (Option.map_inj_right fun _ _ => EngineState.x128.inj).symm
  | x1024 => exact (Option.map_inj_right fun _ _ => EngineState.x1024.inj).symm

section Engines

variable (s : State)

@[simp] theorem State.engines_resetEvent : s.resetEvent.engines = fun _ => none := by
  funext e; cases e <;> rfl

@[simp] theorem State.engines_setSm (c : Sm) :
    (s.setSm c).engines = Function.update s.engines .sm64 (some (.sm64 c)) := by
  funext e; cases e <;> rfl

@[simp] theorem State.engines_setXo (c : Xo) :
    (s.setXo c).engines = Function.update s.engines .x128 (some (.x128 c)) := by
  funext e; cases e <;> rfl

@[simp] theorem State.engines_setXs (c : Xs) :
    (s.setXs c).engines = Function.update s.engines .x1024 (some (.x1024 c)) := by
  funext e; cases e <;> rfl

@[simp] theorem State.engines_entDraw (n : Nat) : (s.entDraw n).2.engines = s.engines := by
  funext e; cases e <;> simp [State.engines]

@[simp] theorem State.engines_fetch : s.fetch.2.engines = s.engines := by
  unfold State.fetch
  split
  · rfl
  · rfl
  · split <;> rfl

@[simp] theorem State.fetch_outbox : s.fetch.2.outbox = s.outbox := by
  unfold State.fetch
  split
  · rfl
  · rfl
  · split <;> rfl

/-- The invariant, with the engines by name. -/
theorem State.inv_iff : s.Inv ↔
    (∀ e c, s.engines e = some c → c.isZero = false) ∧ ∀ r ∈ s.outbox, r.wellFormed = true := by
  constructor
  · rintro ⟨hxo, hxs, hout⟩
    refine ⟨fun e c hc => ?_, hout⟩
    cases e with
    | sm64 => obtain ⟨d, -, rfl⟩ := Option.map_eq_some_iff.mp hc; rfl
    | x128 => obtain ⟨d, hd, rfl⟩ := Option.map_eq_some_iff.mp hc; exact hxo d hd
    | x1024 => obtain ⟨d, hd, rfl⟩ := Option.map_eq_some_iff.mp hc; exact hxs d hd
  · rintro ⟨hzero, hout⟩
    exact ⟨fun d hd => hzero .x128 (.x128 d) (congrArg (Option.map _) hd),
      fun d hd => hzero .x1024 (.x1024 d) (congrArg (Option.map _) hd), hout⟩

end Engines

/-! ## What a command can do -/

/-- Everything the command `i` can do to the engines and the outbox. -/
inductive Effect (i : Instr) (s t : State) : Prop where
  /-- it fails (R206) -/
  | failed (st : Status) (hst : st ≠ .ok) (hengines : t.engines = s.engines)
      (hout : t.outbox = s.outbox ++ [.failed st])
  /-- it is a SEEDE that drew an all-zero seed and goes on executing (R213) -/
  | redraws (hengines : t.engines = s.engines) (hout : t.outbox = s.outbox)
  /-- it seeds its engine, with a legal seed -/
  | seeded (c : EngineState) (hi : i.needsSeeded = false) (hc : c.isZero = false)
      (hengines : t.engines = Function.update s.engines i.engine (some c))
      (hout : t.outbox = s.outbox ++ [.done])
  /-- it advances its seeded engine, which stays zero or not zero, and answers (R160, R29) -/
  | advanced (c d : EngineState) (r : Response) (hi : i.needsSeeded = true)
      (hc : s.engines i.engine = some c) (hzero : d.isZero = c.isZero)
      (hengines : t.engines = Function.update s.engines i.engine (some d))
      (hout : t.outbox = s.outbox ++ [r]) (hok : r.status = .ok) (hr : r.wellFormed = true)

section Effect

variable {i : Instr} {s t : State}

/-- What comes before a command, a fetch or an entropy draw, shows in neither the engines nor the
outbox. -/
theorem Effect.of_same {u : State} (h : Effect i u t) (hengines : u.engines = s.engines)
    (hout : u.outbox = s.outbox) : Effect i s t := by
  cases h with
  | failed st hst he ho => exact .failed st hst (he.trans hengines) (hout ▸ ho)
  | redraws he ho => exact .redraws (he.trans hengines) (ho.trans hout)
  | seeded c hi hc he ho => exact .seeded c hi hc (hengines ▸ he) (hout ▸ ho)
  | advanced c d r hi hc hzero he ho hok hr =>
    exact .advanced c d r hi (hengines ▸ hc) hzero (hengines ▸ he) (hout ▸ ho) hok hr

theorem Effect.of_entDraw {n : Nat} (h : Effect i (s.entDraw n).2 t) : Effect i s t :=
  h.of_same (s.engines_entDraw n) (s.entDraw_outbox n)

theorem seedSmFrom_effect (hi : i.needsSeeded = false) (he : i.engine = .sm64)
    (a : Option (List Byte)) : Effect i s (s.seedSmFrom a) := by
  cases a with
  | none => exact .failed .entropySourceUnavailable (by decide) rfl rfl
  | some b => exact .seeded (.sm64 ⟨le64 b⟩) hi rfl (by rw [he]; exact s.engines_setSm _) rfl

theorem seedXo_effect (hi : i.needsSeeded = false) (he : i.engine = .x128) (c : Xo) :
    Effect i s (s.seedXo c) := by
  rcases s.seedXo_cases c with ⟨-, h⟩ | ⟨hc, h⟩ <;> rw [h]
  · exact .failed .invalidSeed (by decide) rfl rfl
  · exact .seeded (.x128 c) hi hc (by rw [he]; exact s.engines_setXo _) rfl

theorem seedXs_effect (hi : i.needsSeeded = false) (he : i.engine = .x1024) (ws : Vector Word 16) :
    Effect i s (s.seedXs ws) := by
  rcases s.seedXs_cases ws with ⟨-, h⟩ | ⟨hc, h⟩ <;> rw [h]
  · exact .failed .invalidSeed (by decide) rfl rfl
  · exact .seeded (.x1024 ⟨ws, 0⟩) hi hc (by rw [he]; exact s.engines_setXs _) rfl

theorem seedXoFrom_effect (hi : i.needsSeeded = false) (he : i.engine = .x128)
    (a : Option (List Byte)) : Effect i s (s.seedXoFrom a) := by
  rcases s.seedXoFrom_cases a with ⟨-, h⟩ | ⟨b, -, -, h⟩ | ⟨b, -, hc, h⟩ <;> rw [h]
  · exact .failed .entropySourceUnavailable (by decide) rfl rfl
  · exact .redraws rfl rfl
  · exact .seeded (.x128 _) hi hc (by rw [he]; exact (s.setRedraw none).engines_setXo _) rfl

theorem seedXsFrom_effect (hi : i.needsSeeded = false) (he : i.engine = .x1024)
    (a : Option (List Byte)) : Effect i s (s.seedXsFrom a) := by
  rcases s.seedXsFrom_cases a with ⟨-, h⟩ | ⟨b, -, -, h⟩ | ⟨b, -, hc, h⟩ <;> rw [h]
  · exact .failed .entropySourceUnavailable (by decide) rfl rfl
  · exact .redraws rfl rfl
  · exact .seeded (.x1024 _) hi hc (by rw [he]; exact (s.setRedraw none).engines_setXs _) rfl

/-- An operation of the contract on the engine `i` names, where `mk` says which engine that is. -/
theorem contract_effect {E : Type} (mk : E → EngineState) {f : E → E × Response} {c : Option E}
    {put : E → State} (hi : i.needsSeeded = true) (hc : s.engines i.engine = c.map mk)
    (hput : ∀ d, (put d).engines = Function.update s.engines i.engine (some (mk d)))
    (hout : ∀ d, (put d).outbox = s.outbox)
    (hzero : ∀ d, (mk (f d).1).isZero = (mk d).isZero)
    (hok : ∀ d, (f d).2.status = .ok ∧ (f d).2.wellFormed = true) :
    Effect i s (contract f c put s) := by
  cases c with
  | none => exact .failed .notSeeded (by decide) rfl rfl
  | some d =>
    exact .advanced (mk d) _ _ hi hc (hzero d) (hput _) (congrArg (· ++ _) (hout _)) (hok d).1
      (hok d).2

end Effect

theorem unseededX128_isZero :
    (Xo.mk Config.unseededX128.1 Config.unseededX128.2).isZero = false := by
  rw [← Bool.not_eq_true, Xo.isZero_iff]
  exact fun ⟨h0, h1⟩ => unseededX128_ne_zero (Prod.ext h0 h1)

/-- Every command has one of the four effects. -/
theorem exec_effect (i : Instr) (s : State) : ∃ t, exec i s = .next t ∧ Effect i s t := by
  cases i with
  | seedbSm64 w =>
    exact ⟨_, exec_seedbSm64 s w, .seeded (.sm64 ⟨w⟩) rfl rfl (s.engines_setSm _) rfl⟩
  | seediSm64 v =>
    exact ⟨_, exec_seediSm64 s v, .seeded (.sm64 ⟨v⟩) rfl rfl (s.engines_setSm _) rfl⟩
  | seedeSm64 =>
    exact ⟨_, exec_seedeSm64_eq_seedSmFrom s, (seedSmFrom_effect rfl rfl _).of_entDraw⟩
  | seedbX128 w0 w1 => exact ⟨_, exec_seedbX128 s w0 w1, seedXo_effect rfl rfl _⟩
  | seediX128 v => exact ⟨_, exec_seediX128 s v, seedXo_effect rfl rfl _⟩
  | seedeX128 => exact ⟨_, exec_seedeX128 s, (seedXoFrom_effect rfl rfl _).of_entDraw⟩
  | seeddX128 =>
    exact ⟨_, exec_seeddX128 s,
      .seeded (.x128 _) rfl unseededX128_isZero (s.engines_setXo _) rfl⟩
  | seedbX1024 ws => exact ⟨_, exec_seedbX1024 s ws, seedXs_effect rfl rfl _⟩
  | seediX1024 v => exact ⟨_, exec_seediX1024 s v, seedXs_effect rfl rfl _⟩
  | seedeX1024 => exact ⟨_, exec_seedeX1024 s, (seedXsFrom_effect rfl rfl _).of_entDraw⟩
  | next64Sm64 | next32Sm64 | fillSm64 len | jumpSm64 =>
    simp only [exec_next64Sm64, exec_next32Sm64, exec_fillSm64, exec_jumpSm64,
      outNext64_eq_contract, outNext32_eq_contract, outFill_eq_contract, outJump_eq_contract]
    exact ⟨_, rfl, contract_effect .sm64 rfl rfl s.engines_setSm s.setSm_outbox (by simp)
      fun _ => ⟨rfl, rfl⟩⟩
  | next64X128 | next32X128 | fillX128 len | jumpX128 =>
    simp only [exec_next64X128, exec_next32X128, exec_fillX128, exec_jumpX128,
      outNext64_eq_contract, outNext32_eq_contract, outFill_eq_contract, outJump_eq_contract]
    exact ⟨_, rfl, contract_effect .x128 rfl rfl s.engines_setXo s.setXo_outbox
      (by simp) fun _ => ⟨rfl, rfl⟩⟩
  | next64X1024 | next32X1024 | fillX1024 len | jumpX1024 =>
    simp only [exec_next64X1024, exec_next32X1024, exec_fillX1024, exec_jumpX1024,
      outNext64_eq_contract, outNext32_eq_contract, outFill_eq_contract, outJump_eq_contract]
    exact ⟨_, rfl, contract_effect .x1024 rfl rfl s.engines_setXs s.setXs_outbox
      (by simp) fun _ => ⟨rfl, rfl⟩⟩

theorem effect_of_exec {i : Instr} {s t : State} (h : exec i s = .next t) : Effect i s t := by
  obtain ⟨u, hu, heffect⟩ := exec_effect i s
  cases hu.symm.trans h
  exact heffect

section Effect

variable {i : Instr} {s t : State} {e : Engine}

/-- A command leaves the engines it does not name (R28). -/
theorem Effect.engines_other (h : Effect i s t) (he : e ≠ i.engine) : t.engines e = s.engines e := by
  cases h with
  | failed _ _ hengines _ | redraws hengines _ => rw [hengines]
  | seeded _ _ _ hengines _ | advanced _ _ _ _ _ _ hengines _ _ _ =>
    rw [hengines, Function.update_of_ne he]

/-- No command clears a valid bit (R24). -/
theorem Effect.keeps_valid (h : Effect i s t) (hs : s.valid e = true) : t.valid e = true := by
  rw [State.valid_eq] at hs ⊢
  cases h with
  | failed _ _ hengines _ | redraws hengines _ => rw [hengines, hs]
  | seeded _ _ _ hengines _ | advanced _ _ _ _ _ _ hengines _ _ _ =>
    rw [hengines, Function.update_apply]
    split
    · rfl
    · exact hs

/-- Only a seeding of the engine sets its valid bit (R24, R32). -/
theorem Effect.sets_valid (h : Effect i s t) (hs : s.valid e = false) (ht : t.valid e = true) :
    i.engine = e ∧ i.needsSeeded = false ∧ t.outbox = s.outbox ++ [⟨.ok, none, none⟩] := by
  rw [State.valid_eq] at hs ht
  have he : i.engine = e := by
    by_contra hne
    rw [h.engines_other (Ne.symm hne), hs] at ht
    cases ht
  subst he
  cases h with
  | failed _ _ hengines _ | redraws hengines _ => simp [hengines, hs] at ht
  | seeded _ hi _ _ hout => exact ⟨rfl, hi, hout⟩
  | advanced _ _ _ _ hc _ _ _ _ _ => simp [hc] at hs

theorem wellFormed_append {o : List Response} {r : Response} (ho : ∀ q ∈ o, q.wellFormed = true)
    (hr : r.wellFormed = true) : ∀ q ∈ o ++ [r], q.wellFormed = true :=
  List.forall_mem_append.mpr ⟨ho, List.forall_mem_singleton.mpr hr⟩

theorem Response.failed_wellFormed (st : Status) : (Response.failed st).wellFormed = true := by
  cases st <;> rfl

theorem update_keeps_nonzero {g : Engine → Option EngineState} {k : Engine} {d : EngineState}
    (hg : ∀ e c, g e = some c → c.isZero = false) (hd : d.isZero = false) :
    ∀ e c, Function.update g k (some d) e = some c → c.isZero = false := by
  intro e c hc
  rw [Function.update_apply] at hc
  split at hc
  · cases hc; exact hd
  · exact hg e c hc

/-- A command keeps the invariant: what it writes is a legal seed, or comes of a state that was not
zero (R22, R23, R29, R70). -/
theorem Effect.keeps_inv (h : Effect i s t) (hs : s.Inv) : t.Inv := by
  rw [State.inv_iff] at hs ⊢
  obtain ⟨hzero, hform⟩ := hs
  cases h with
  | failed st _ hengines hout =>
    rw [hengines, hout]
    exact ⟨hzero, wellFormed_append hform (Response.failed_wellFormed st)⟩
  | redraws hengines hout =>
    rw [hengines, hout]
    exact ⟨hzero, hform⟩
  | seeded c _ hc hengines hout =>
    rw [hengines, hout]
    exact ⟨update_keeps_nonzero hzero hc, wellFormed_append hform rfl⟩
  | advanced c d r _ hc hd hengines hout _ hr =>
    rw [hengines, hout]
    exact ⟨update_keeps_nonzero hzero (hd.trans (hzero _ _ hc)), wellFormed_append hform hr⟩

end Effect

/-! ## What a step can do -/

/-- The next step from `s` runs the command `i`: its frame is the first in the inbox (log entry 1),
or it is a SEEDE that is still executing (log entry 5). -/
def State.Runs (s : State) (i : Instr) : Prop :=
  (s.redraw = none ∧ ∃ f rest, s.inbox = .frame f :: rest ∧ decode f = .command i) ∨
    (s.redraw = some .x128 ∧ i = .seedeX128) ∨ (s.redraw = some .x1024 ∧ i = .seedeX1024)

/-- What is taken next, and from where. -/
theorem State.fetch_cases (s : State) :
    s.fetch.1 = .idle ∨
    (s.fetch.1 = .reset ∧ s.redraw = none ∧ ∃ rest, s.inbox = .reset :: rest) ∨
    s.fetch.1 = .illegal ∨
    ∃ i, s.fetch.1 = .run i ∧ s.Runs i := by
  rcases hr : s.redraw with _ | _ | _
  · rcases hi : s.inbox with _ | ⟨f | _, rest⟩
    · exact .inl (by rw [s.fetch_idle hr hi])
    · cases hd : decode f with
      | command i =>
        exact .inr (.inr (.inr ⟨i, by rw [s.fetch_frame f rest hr hi, workOf_command f i hd],
          .inl ⟨hr, f, rest, hi, hd⟩⟩))
      | illegal why =>
        exact .inr (.inr (.inl (by rw [s.fetch_frame f rest hr hi, workOf_illegal f why hd])))
    · exact .inr (.inl ⟨by rw [s.fetch_reset rest hr hi], rfl, rest, rfl⟩)
  · exact .inr (.inr (.inr ⟨_, by rw [s.fetch_x128 hr], .inr (.inl ⟨hr, rfl⟩)⟩))
  · exact .inr (.inr (.inr ⟨_, by rw [s.fetch_x1024 hr], .inr (.inr ⟨hr, rfl⟩)⟩))

/-- Everything a step can do to the engines and the outbox. -/
inductive StepEffect (s t : State) : Prop where
  | idle (hengines : t.engines = s.engines) (hout : t.outbox = s.outbox)
  | reset (hredraw : s.redraw = none) (hinbox : ∃ rest, s.inbox = .reset :: rest)
      (hengines : t.engines = fun _ => none) (hout : t.outbox = s.outbox)
  | illegal (hengines : t.engines = s.engines)
      (hout : t.outbox = s.outbox ++ [.failed .illegalCommand])
  | ran (i : Instr) (hruns : s.Runs i) (heffect : Effect i s t)

theorem stepEffect_of_step {s t : State} (h : step s = .next t) : StepEffect s t := by
  rw [step_of_fetch s s.fetch.2 s.fetch.1 rfl] at h
  rcases s.fetch_cases with hw | ⟨hw, hredraw, hinbox⟩ | hw | ⟨i, hw, hruns⟩ <;> rw [hw] at h
  · cases h
    exact .idle s.engines_fetch s.fetch_outbox
  · cases h
    exact .reset hredraw hinbox (State.engines_resetEvent _) s.fetch_outbox
  · cases h
    exact .illegal s.engines_fetch (congrArg (· ++ _) s.fetch_outbox)
  · exact .ran i hruns ((effect_of_exec h).of_same s.engines_fetch s.fetch_outbox)

/-- A step keeps the invariant: only a command writes an engine, and it keeps it. -/
theorem StepEffect.keeps_inv {s t : State} (h : StepEffect s t) (hs : s.Inv) : t.Inv := by
  obtain ⟨hzero, hform⟩ := s.inv_iff.mp hs
  cases h with
  | idle hengines hout =>
    rw [t.inv_iff, hengines, hout]
    exact ⟨hzero, hform⟩
  | reset _ _ hengines hout =>
    rw [t.inv_iff, hengines, hout]
    exact ⟨nofun, hform⟩
  | illegal hengines hout =>
    rw [t.inv_iff, hengines, hout]
    exact ⟨hzero, wellFormed_append hform rfl⟩
  | ran i _ heffect => exact heffect.keeps_inv hs

/-- A step that clears a valid bit takes a reset event (R24, R32). -/
theorem StepEffect.clears_valid {s t : State} {e : Engine} (h : StepEffect s t)
    (hs : s.valid e = true) (ht : t.valid e = false) :
    s.redraw = none ∧ ∃ rest, s.inbox = .reset :: rest := by
  cases h with
  | idle hengines _ | illegal hengines _ =>
    rw [State.valid_congr hengines, hs] at ht
    cases ht
  | reset hredraw hinbox _ _ => exact ⟨hredraw, hinbox⟩
  | ran i _ heffect =>
    rw [heffect.keeps_valid hs] at ht
    cases ht

/-- A step that sets a valid bit runs a seeding command of the engine (R24, R32). -/
theorem StepEffect.sets_valid {s t : State} {e : Engine} (h : StepEffect s t)
    (hs : s.valid e = false) (ht : t.valid e = true) :
    ∃ i, s.Runs i ∧ i.engine = e ∧ i.needsSeeded = false ∧
      t.outbox = s.outbox ++ [⟨.ok, none, none⟩] := by
  cases h with
  | idle hengines _ | illegal hengines _ =>
    rw [State.valid_congr hengines, hs] at ht
    cases ht
  | reset _ _ hengines _ =>
    rw [State.valid_eq, hengines] at ht
    cases ht
  | ran i hruns heffect => exact ⟨i, hruns, heffect.sets_valid hs ht⟩

/-- Settles O59: by what the step can do. -/
theorem stepKeepsInvariant : Obligations.StepKeepsInvariant :=
  fun _ _ hs h => (stepEffect_of_step h).keeps_inv hs

/-- Settles O58: no engine holds words and the outbox is empty. -/
theorem resetMeetsInvariant : Obligations.ResetMeetsInvariant :=
  State.reset.inv_iff.mpr ⟨by rw [State.engines_reset]; nofun, nofun⟩

/-- Settles O14: by the definition of the reset state. -/
theorem resetLeavesEnginesUnseeded : Obligations.ResetLeavesEnginesUnseeded :=
  ⟨rfl, rfl, rfl, rfl, rfl, rfl, rfl⟩

/-- Settles O46: every effect of a command is on the engine it names. -/
theorem commandsKeepOtherEngines : Obligations.CommandsKeepOtherEngines :=
  fun _ s t e h he => (t.sameEngine_iff s e).mpr ((effect_of_exec h).engines_other he)

/-- Settles O50: by what the step, or the command, can do. -/
theorem validBitChanges : Obligations.ValidBitChanges :=
  ⟨fun _ _ _ h => (stepEffect_of_step h).clears_valid,
    fun _ _ _ h => (stepEffect_of_step h).sets_valid,
    fun _ _ _ _ h => (effect_of_exec h).sets_valid⟩

/-! ## Commands and the entropy source (60_exceptions.md rule R212) -/

/-- The same block beside another entropy source. -/
def State.withSource (l : List EntAnswer) (k : Nat) (s : State) : State :=
  { s with entropy := l, entropyIndex := k }

section Source

variable (l : List EntAnswer) (k : Nat) (s : State)

theorem contract_withSource {E : Type} (f : E → E × Response) (c : Option E) {put put' : E → State}
    (hput : ∀ d, put' d = (put d).withSource l k) :
    contract f c put' (s.withSource l k) = (contract f c put s).withSource l k := by
  cases c with
  | none => rfl
  | some d => exact congrArg (State.respond _) (hput _)

theorem State.seedXo_withSource (c : Xo) :
    (s.withSource l k).seedXo c = (s.seedXo c).withSource l k := by
  unfold State.seedXo; split <;> rfl

theorem State.seedXs_withSource (ws : Vector Word 16) :
    (s.withSource l k).seedXs ws = (s.seedXs ws).withSource l k := by
  unfold State.seedXs; split <;> rfl

/-- A command that draws no entropy does the same beside another source. -/
theorem exec_withSource (i : Instr) (hi : i.drawsEntropy = false) :
    ∃ t, exec i s = .next t ∧ exec i (s.withSource l k) = .next (t.withSource l k) := by
  cases i with
  | seedeSm64 | seedeX128 | seedeX1024 => cases hi
  | seedbSm64 | seediSm64 | seeddX128 => exact ⟨_, rfl, rfl⟩
  | seedbX128 | seediX128 => exact ⟨_, rfl, congrArg _ (s.seedXo_withSource l k _)⟩
  | seedbX1024 | seediX1024 => exact ⟨_, rfl, congrArg _ (s.seedXs_withSource l k _)⟩
  | next64Sm64 | next32Sm64 | fillSm64 len | jumpSm64 =>
    simp only [exec_next64Sm64, exec_next32Sm64, exec_fillSm64, exec_jumpSm64,
      outNext64_eq_contract, outNext32_eq_contract, outFill_eq_contract, outJump_eq_contract]
    exact ⟨_, rfl, congrArg _ (contract_withSource l k s _ s.sm fun _ => rfl)⟩
  | next64X128 | next32X128 | fillX128 len | jumpX128 =>
    simp only [exec_next64X128, exec_next32X128, exec_fillX128, exec_jumpX128,
      outNext64_eq_contract, outNext32_eq_contract, outFill_eq_contract, outJump_eq_contract]
    exact ⟨_, rfl, congrArg _ (contract_withSource l k s _ s.xo fun _ => rfl)⟩
  | next64X1024 | next32X1024 | fillX1024 len | jumpX1024 =>
    simp only [exec_next64X1024, exec_next32X1024, exec_fillX1024, exec_jumpX1024,
      outNext64_eq_contract, outNext32_eq_contract, outFill_eq_contract, outJump_eq_contract]
    exact ⟨_, rfl, congrArg _ (contract_withSource l k s _ s.xs fun _ => rfl)⟩

end Source

/-! ## The stream of one engine (20_memory.md rule R49) -/

/-- The blocks `s` and `u` hold the same state of the engine `e` and jump by the same strides. -/
def SameStream (e : Engine) (s u : State) : Prop := s.sameEngine u e ∧ s.strides = u.strides

/-- A command to `e` that draws no entropy does the same to `e` in both blocks, whatever their
sources and their other engines. -/
theorem SameStream.exec_own {i : Instr} {s u : State} (h : SameStream i.engine s u)
    (hi : i.drawsEntropy = false) :
    ∃ t v, exec i s = .next t ∧ exec i u = .next v ∧ SameStream i.engine t v := by
  obtain ⟨hengine, hstrides⟩ := h
  obtain ⟨v, hv, hsource⟩ := exec_withSource s.entropy s.entropyIndex u i hi
  have hstart : Agree i.engine s.outbox u.outbox s (u.withSource s.entropy s.entropyIndex) :=
    ⟨hengine, ⟨[], by simp, by simp [State.withSource]⟩, rfl, rfl, hstrides⟩
  obtain ⟨t, v', ht, hv', hagree⟩ := exec_agree i hstart
  cases hsource.symm.trans hv'
  exact ⟨t, v, ht, hv, hagree.engine, hagree.strides⟩

/-- A command to another engine, run in one of the blocks only, keeps the stream of `e` (R28). -/
theorem SameStream.exec_other {e : Engine} {i : Instr} {s u : State} (h : SameStream e s u)
    (hi : e ≠ i.engine) : ∃ t, exec i s = .next t ∧ SameStream e t u := by
  obtain ⟨hengine, hstrides⟩ := h
  obtain ⟨t, ht, hkept⟩ := exec_next_keeps_strides s i
  refine ⟨t, ht, ?_, hkept.trans hstrides⟩
  rw [State.sameEngine_iff] at hengine ⊢
  rw [(effect_of_exec ht).engines_other hi, hengine]

theorem execAll_cons {i : Instr} {s t : State} (h : exec i s = .next t) (is : List Instr) :
    execAll (i :: is) s = execAll is t := by
  rw [execAll, h]

theorem execAll_sameStream (e : Engine) (l : List Instr) {s u : State} (h : SameStream e s u)
    (hl : ∀ i ∈ l, i.engine = e → i.drawsEntropy = false) :
    ∃ t v, execAll l s = .next t ∧ execAll (l.filter fun i => i.engine = e) u = .next v ∧
      SameStream e t v := by
  induction l generalizing s u with
  | nil => exact ⟨s, u, rfl, rfl, h⟩
  | cons i l ih =>
    obtain ⟨hi, hl⟩ := List.forall_mem_cons.mp hl
    by_cases he : i.engine = e
    · subst he
      obtain ⟨s', u', hs', hu', h'⟩ := h.exec_own (hi rfl)
      rw [List.filter_cons_of_pos (by simp), execAll_cons hs', execAll_cons hu']
      exact ih h' hl
    · obtain ⟨s', hs', h'⟩ := h.exec_other (Ne.symm he)
      rw [List.filter_cons_of_neg (by simpa using he), execAll_cons hs']
      exact ih h' hl

/-- Settles O57: a block and itself hold the same stream, and running the whole list in one and the
engine's own commands in the other keeps that. -/
theorem streamsAreIndependent : Obligations.StreamsAreIndependent := by
  intro e l s hl
  have hstart : SameStream e s s := ⟨(s.sameEngine_iff s e).mpr rfl, rfl⟩
  obtain ⟨t, v, ht, hv, hengine, -⟩ := execAll_sameStream e l hstart hl
  exact ⟨t, v, ht, hv, hengine⟩

end Sys2Proof.Machine

/-! ## One frame, one response (20_memory.md rule R49, 70_reset_and_hazards.md rules R234, R235) -/

namespace Sys2Proof.Machine

/-- From `s` to `t` one response was sent, nothing was taken off the inbox, and no SEEDE was left
executing that was not so before. -/
structure Answered (s t : State) : Prop where
  inbox : t.inbox = s.inbox
  redraw : t.redraw = s.redraw
  outbox : ∃ r, t.outbox = s.outbox ++ [r]

section Answered

variable {s t : State}

theorem State.respond_answered (s : State) (r : Response) : Answered s (s.respond r) :=
  ⟨rfl, rfl, r, rfl⟩

theorem State.raise_answered (s : State) (st : Status) : Answered s (s.raise st) :=
  s.respond_answered _

/-- An entropy draw before the response shows in none of the three fields. -/
theorem Answered.of_entDraw {n : Nat} (h : Answered (s.entDraw n).2 t) : Answered s t where
  inbox := h.inbox.trans (s.entDraw_inbox n)
  redraw := h.redraw.trans (s.entDraw_redraw n)
  outbox := s.entDraw_outbox n ▸ h.outbox

theorem State.seedSmFrom_answered (s : State) (a : Option (List Byte)) :
    Answered s (s.seedSmFrom a) := by
  cases a with
  | none => exact s.raise_answered _
  | some b => exact ⟨rfl, rfl, _, rfl⟩

theorem State.seedXo_answered (s : State) (c : Xo) : Answered s (s.seedXo c) := by
  rcases s.seedXo_cases c with ⟨-, h⟩ | ⟨-, h⟩ <;> rw [h]
  · exact s.raise_answered _
  · exact ⟨rfl, rfl, _, rfl⟩

theorem State.seedXs_answered (s : State) (ws : Vector Word 16) : Answered s (s.seedXs ws) := by
  rcases s.seedXs_cases ws with ⟨-, h⟩ | ⟨-, h⟩ <;> rw [h]
  · exact s.raise_answered _
  · exact ⟨rfl, rfl, _, rfl⟩

/-- An operation of the contract answers once, whatever writes the engine back. -/
theorem contract_answered {E : Type} (f : E → E × Response) (c : Option E) {put : E → State}
    (hput : ∀ d r, Answered s ((put d).respond r)) : Answered s (contract f c put s) := by
  cases c with
  | none => exact s.raise_answered _
  | some d => exact hput _ _

end Answered

/-- Every command answers once, but for the two SEEDE that can draw again (R70, R213). -/
theorem exec_answered (i : Instr) (s : State) (hX128 : i ≠ .seedeX128) (hX1024 : i ≠ .seedeX1024) :
    ∃ t, exec i s = .next t ∧ Answered s t := by
  cases i with
  | seedeX128 => exact absurd rfl hX128
  | seedeX1024 => exact absurd rfl hX1024
  | seedbSm64 w => exact ⟨_, exec_seedbSm64 s w, rfl, rfl, _, rfl⟩
  | seediSm64 v => exact ⟨_, exec_seediSm64 s v, rfl, rfl, _, rfl⟩
  | seedeSm64 =>
    exact ⟨_, exec_seedeSm64_eq_seedSmFrom s, (State.seedSmFrom_answered _ _).of_entDraw⟩
  | seedbX128 w0 w1 => exact ⟨_, exec_seedbX128 s w0 w1, s.seedXo_answered _⟩
  | seediX128 v => exact ⟨_, exec_seediX128 s v, s.seedXo_answered _⟩
  | seeddX128 => exact ⟨_, exec_seeddX128 s, rfl, rfl, _, rfl⟩
  | seedbX1024 ws => exact ⟨_, exec_seedbX1024 s ws, s.seedXs_answered _⟩
  | seediX1024 v => exact ⟨_, exec_seediX1024 s v, s.seedXs_answered _⟩
  | next64Sm64 | next32Sm64 | fillSm64 len | jumpSm64 =>
    simp only [exec_next64Sm64, exec_next32Sm64, exec_fillSm64, exec_jumpSm64,
      outNext64_eq_contract, outNext32_eq_contract, outFill_eq_contract, outJump_eq_contract]
    exact ⟨_, rfl, contract_answered _ s.sm fun _ _ => ⟨rfl, rfl, _, rfl⟩⟩
  | next64X128 | next32X128 | fillX128 len | jumpX128 =>
    simp only [exec_next64X128, exec_next32X128, exec_fillX128, exec_jumpX128,
      outNext64_eq_contract, outNext32_eq_contract, outFill_eq_contract, outJump_eq_contract]
    exact ⟨_, rfl, contract_answered _ s.xo fun _ _ => ⟨rfl, rfl, _, rfl⟩⟩
  | next64X1024 | next32X1024 | fillX1024 len | jumpX1024 =>
    simp only [exec_next64X1024, exec_next32X1024, exec_fillX1024, exec_jumpX1024,
      outNext64_eq_contract, outNext32_eq_contract, outFill_eq_contract, outJump_eq_contract]
    exact ⟨_, rfl, contract_answered _ s.xs fun _ _ => ⟨rfl, rfl, _, rfl⟩⟩

/-- Settles O8: the frame is what the step fetches, and its work is to run the command. -/
theorem stepRunsDecodedCommand : Obligations.StepRunsDecodedCommand := by
  intro s f rest i hredraw hinbox hdecode
  rw [step_of_fetch s _ _ (s.fetch_frame f rest hredraw hinbox), workOf_command f i hdecode]

/-- A frame that does not decode is taken off the inbox and answered IllegalCommand (R203). -/
theorem step_of_illegal_frame {s : State} {f : Frame} {rest : List HostInput} {why : Illegal}
    (hredraw : s.redraw = none) (hinbox : s.inbox = .frame f :: rest)
    (hdecode : decode f = .illegal why) :
    step s = .next (State.raise .illegalCommand { s with inbox := rest }) := by
  rw [step_of_fetch s _ _ (s.fetch_frame f rest hredraw hinbox), workOf_illegal f why hdecode]

/-- A step on a frame that is no SEEDE that can draw again takes it off the inbox and answers it. -/
theorem step_answered {s : State} {f : Frame} {rest : List HostInput} (hredraw : s.redraw = none)
    (hinbox : s.inbox = .frame f :: rest)
    (hf : decode f ≠ .command .seedeX128 ∧ decode f ≠ .command .seedeX1024) :
    ∃ t, step s = .next t ∧ Answered { s with inbox := rest } t := by
  cases hdecode : decode f with
  | illegal why =>
    exact ⟨_, step_of_illegal_frame hredraw hinbox hdecode, State.raise_answered _ _⟩
  | command i =>
    rw [hdecode] at hf
    rw [stepRunsDecodedCommand s f rest i hredraw hinbox hdecode]
    exact exec_answered i _ (fun h => hf.1 (congrArg _ h)) fun h => hf.2 (congrArg _ h)

theorem runSteps_succ {s t : State} (h : step s = .next t) (k : Nat) :
    runSteps (k + 1) s = runSteps k t := by
  rw [runSteps, h]

/-- Settles O56: by induction on the frames; a step answers the first one and leaves a block that
waits for the others. -/
theorem framesAreAnsweredInOrder : Obligations.FramesAreAnsweredInOrder := by
  intro fs
  induction fs with
  | nil => exact fun s rest hredraw hinbox _ => ⟨s, [], rfl, hinbox, hredraw, by simp, rfl⟩
  | cons f fs ih =>
    intro s rest hredraw hinbox hfs
    obtain ⟨hf, hfs⟩ := List.forall_mem_cons.mp hfs
    obtain ⟨u, hstep, hkept, hidle, r, hsent⟩ := step_answered hredraw hinbox hf
    obtain ⟨t, sent, hrun, hrest, hdone, hout, hlen⟩ := ih u rest (hidle.trans hredraw) hkept hfs
    exact ⟨t, r :: sent, (runSteps_succ hstep _).trans hrun, hrest, hdone,
      by simp [hout, hsent], by simp [hlen]⟩

end Sys2Proof.Machine

/-! ## The fields of the command word (30_encoding.md rules R61, R65) -/

namespace Sys2Proof

section Fields

variable (f : Frame)

theorem Frame.op_toNat : f.op.toNat = f.cw.toNat % 16 := by
  simp [Frame.op, BitVec.extractLsb'_toNat]

theorem Frame.eng_toNat : f.eng.toNat = f.cw.toNat / 16 % 4 := by
  simp [Frame.eng, BitVec.extractLsb'_toNat, Nat.shiftRight_eq_div_pow]

theorem Frame.rsv_toNat : f.rsv.toNat = f.cw.toNat / 64 % 4 := by
  simp [Frame.rsv, BitVec.extractLsb'_toNat, Nat.shiftRight_eq_div_pow]

theorem Frame.len_toNat : f.len.toNat = f.cw.toNat / 256 := by
  have hlt := f.cw.isLt
  rw [Frame.len, BitVec.extractLsb'_toNat, Nat.shiftRight_eq_div_pow]
  omega

/-- The command word is its LEN field above the byte of the other three. -/
theorem Frame.cw_eq_append : f.cw =
    f.len ++ BitVec.ofNat 8 (f.op.toNat + 16 * f.eng.toNat + 64 * f.rsv.toNat) := by
  apply BitVec.eq_of_toNat_eq
  rw [BitVec.toNat_append, ← Nat.shiftLeft_add_eq_or_of_lt (BitVec.isLt _), Nat.shiftLeft_eq,
    BitVec.toNat_ofNat, f.op_toNat, f.eng_toNat, f.rsv_toNat, f.len_toNat]
  omega

end Fields

/-- Settles O4: each field is digits of the command word, and the payload lengths are compared engine
by engine. -/
theorem commandWordFields : Obligations.CommandWordFields := by
  refine ⟨fun f => ⟨f.op_toNat, f.eng_toNat, f.rsv_toNat, f.len_toNat⟩, fun op eng heng => ?_⟩
  have hcodes : eng = 0 ∨ eng = 1 ∨ eng = 2 := by revert eng; decide
  rcases hcodes with rfl | rfl | rfl <;> rfl

/-! ## The six tests and the row (30_encoding.md rules R66, R67) -/

section Decoder

variable {f : Frame} {i : Instr}

/-- The six tests of R66, by the numbers of the fields. -/
theorem Frame.wellFormed_iff : f.wellFormed = true ↔
    f.rsv.toNat = 0 ∧ f.eng.toNat ≠ 3 ∧ (f.op.toNat ≠ 0 ∧ f.op.toNat < 9) ∧
    (f.op.toNat = 7 ∨ f.len.toNat = 0) ∧ (f.op.toNat ≠ 4 ∨ f.eng.toNat = 1) ∧
    f.payload.length = payLen f.op f.eng := by
  simp [Frame.wellFormed, Frame.reservedZero, Frame.engineKnown, Frame.operationKnown,
    Frame.lenAllowed, Frame.seeddAllowed, Frame.payloadFits, ← BitVec.toNat_inj, BitVec.lt_def,
    and_assoc]

/-- A frame decodes to a command when it passes the six tests and has the command's row. -/
theorem decode_eq_command_iff : decode f = .command i ↔ f.wellFormed = true ∧ rowOf f = some i := by
  refine ⟨fun h => ?_, fun ⟨hwf, hrow⟩ => decode_of_wellFormed f hwf i hrow⟩
  cases hwf : f.wellFormed with
  | false =>
    obtain ⟨why, hwhy⟩ := decode_of_not_wellFormed f hwf
    cases hwhy.symm.trans h
  | true =>
    obtain ⟨j, hrow⟩ := rowOf_isSome f hwf
    cases (decode_of_wellFormed f hwf j hrow).symm.trans h
    exact ⟨rfl, hrow⟩

/-- A frame is Illegal when it fails one of the six tests. -/
theorem decode_illegal_iff : (∃ why, decode f = .illegal why) ↔ ¬ f.wellFormed = true := by
  refine ⟨fun ⟨why, h⟩ hwf => ?_, fun h => decode_of_not_wellFormed f (Bool.eq_false_of_not_eq_true h)⟩
  obtain ⟨i, hrow⟩ := rowOf_isSome f hwf
  cases (decode_of_wellFormed f hwf i hrow).symm.trans h

end Decoder

/-- Settles O3: the negation of the six tests, with the fields as digits of the command word. -/
theorem illegalFramesExactly : Obligations.IllegalFramesExactly := by
  intro f
  rw [decode_illegal_iff, Frame.wellFormed_iff, f.op_toNat, f.eng_toNat, f.rsv_toNat, f.len_toNat]
  omega

/-! ## Seeds as bytes and as words (20_memory.md rule R41, 30_encoding.md rule R72) -/

theorem seedWord_flatMap_bytes64 (ws : List Word) (i : Nat) (hi : i < ws.length) :
    seedWord (ws.flatMap bytes64) i = ws[i] := by
  induction ws generalizing i with
  | nil => cases hi
  | cons w ws ih =>
    cases i with
    | zero => exact le64_bytes64_append w _
    | succ i => exact ih i (Nat.lt_of_succ_lt_succ hi)

theorem seedWords16_seedBytes16 (ws : Vector Word 16) : seedWords16 (seedBytes16 ws) = ws := by
  refine Laws.words_ext _ _ fun i => ?_
  rw [seedWords16, Laws.words16_get, seedBytes16,
    seedWord_flatMap_bytes64 _ _ (by simpa using i.isLt), Vector.getElem_toList]

theorem bytes64_seedWord (b : List Byte) (i : Nat) (hi : 8 * i + 8 ≤ b.length) :
    bytes64 (seedWord b i) = (b.drop (8 * i)).take 8 := by
  have hlen : ((b.drop (8 * i)).take 8).length = 8 := by simp; omega
  have hword : seedWord b i = le64 ((b.drop (8 * i)).take 8) := by
    rw [seedWord, le64, le64, List.take_take, Nat.min_self]
  rw [hword, bytes64_le64 _ hlen]

/-- The words of a string of whole words are the string again. -/
theorem flatMap_bytes64_seedWord (b : List Byte) (n : Nat) (hb : b.length = 8 * n) :
    (List.range n).flatMap (fun i => bytes64 (seedWord b i)) = b := by
  have hstart : ∀ k ≤ n,
      (List.range k).flatMap (fun i => bytes64 (seedWord b i)) = b.take (8 * k) := by
    intro k
    induction k with
    | zero => simp
    | succ k ih =>
      intro hk
      rw [List.range_succ, List.flatMap_append, ih (by omega), List.flatMap_singleton,
        bytes64_seedWord b k (by omega), Nat.mul_succ, List.take_add]
  rw [hstart n le_rfl, ← hb, List.take_length]

/-! ## The round trips of the decoder (30_encoding.md rules R66, R72, R75) -/

open Laws.EncodedFrame in
/-- The facts of Laws/PerInstr.lean, for every command. -/
theorem encodedFrame : ∀ i, Statement i
  | .seedbSm64 w => seedbSm64 w
  | .seediSm64 v => seediSm64 v
  | .seedeSm64 => seedeSm64
  | .next64Sm64 => next64Sm64
  | .next32Sm64 => next32Sm64
  | .fillSm64 len => fillSm64 len
  | .jumpSm64 => jumpSm64
  | .seedbX128 w0 w1 => seedbX128 w0 w1
  | .seediX128 v => seediX128 v
  | .seedeX128 => seedeX128
  | .seeddX128 => seeddX128
  | .next64X128 => next64X128
  | .next32X128 => next32X128
  | .fillX128 len => fillX128 len
  | .jumpX128 => jumpX128
  | .seedbX1024 ws => seedbX1024 ws
  | .seediX1024 v => seediX1024 v
  | .seedeX1024 => seedeX1024
  | .next64X1024 => next64X1024
  | .next32X1024 => next32X1024
  | .fillX1024 len => fillX1024 len
  | .jumpX1024 => jumpX1024

theorem encode_wellFormed (i : Instr) : (encode i).wellFormed = true := (encodedFrame i).1

/-- The LEN field `Laws.EncodedFrame.fill_frame` leaves out. -/
theorem fill_frame_len (len : BitVec 24) (low : Byte) : (Frame.mk (len ++ low) []).len = len := by
  apply BitVec.eq_of_toNat_eq
  have hlow := low.isLt
  rw [Frame.len_toNat, BitVec.toNat_append, ← Nat.shiftLeft_add_eq_or_of_lt hlow, Nat.shiftLeft_eq]
  omega

theorem rowOf_encode (i : Instr) : rowOf (encode i) = some i := by
  cases i with
  | seedeSm64 | next64Sm64 | next32Sm64 | jumpSm64 | seedeX128 | seeddX128 | next64X128 | next32X128
  | jumpX128 | seedeX1024 | next64X1024 | next32X1024 | jumpX1024 => rfl
  | seedbSm64 w | seediSm64 w | seediX128 w | seediX1024 w =>
    simp [rowOf, encode, Frame.op, Frame.eng]
  | seedbX128 w0 w1 =>
    have hfirst : seedWord (bytes64 w0 ++ bytes64 w1) 0 = w0 := le64_bytes64_append w0 _
    have hsecond : seedWord (bytes64 w0 ++ bytes64 w1) 1 = w1 := le64_bytes64 w1
    simp [rowOf, encode, Frame.op, Frame.eng, hfirst, hsecond]
  | seedbX1024 ws => simp [rowOf, encode, Frame.op, Frame.eng, seedWords16_seedBytes16]
  | fillSm64 len | fillX128 len | fillX1024 len =>
    simp [rowOf, encode, Laws.EncodedFrame.fill_frame, fill_frame_len]

/-- Settles O1: the frame of a command passes the six tests and has the command's row. -/
theorem decodeEncodeRoundTrip : Obligations.DecodeEncodeRoundTrip :=
  fun i => decode_eq_command_iff.mpr ⟨encode_wellFormed i, rowOf_encode i⟩

/-! What the numbers of OP and ENG say of a well-formed frame. -/

section Row

variable {f : Frame} {op eng : Nat} (hwf : f.wellFormed = true) (hop : f.op.toNat = op)
  (heng : f.eng.toNat = eng)

include hwf hop heng

theorem Frame.cw_of_row : f.cw = f.len ++ BitVec.ofNat 8 (op + 16 * eng) := by
  obtain ⟨hrsv, -⟩ := Frame.wellFormed_iff.mp hwf
  conv_lhs => rw [f.cw_eq_append, hrsv, hop, heng]
  rfl

/-- The payload length of R65, at the codes themselves. -/
theorem Frame.payload_length_of_row :
    f.payload.length = payLen (BitVec.ofNat 4 op) (BitVec.ofNat 2 eng) := by
  obtain ⟨-, -, -, -, -, hfits⟩ := Frame.wellFormed_iff.mp hwf
  rw [hfits, ← hop, ← heng, BitVec.ofNat_toNat, BitVec.ofNat_toNat, BitVec.setWidth_eq,
    BitVec.setWidth_eq]

/-- But for FILL, LEN is zero. -/
theorem Frame.eq_of_row (hfill : op ≠ 7) {p : List Byte} (hp : p = f.payload) :
    Frame.mk (0#24 ++ BitVec.ofNat 8 (op + 16 * eng)) p = f := by
  obtain ⟨-, -, -, hlen, -⟩ := Frame.wellFormed_iff.mp hwf
  have hzero : f.len = 0#24 := BitVec.eq_of_toNat_eq (hlen.resolve_left (hop ▸ hfill))
  rw [hp, ← hzero, ← Frame.cw_of_row hwf hop heng]

theorem Frame.eq_of_row_without_payload (hfill : op ≠ 7)
    (hnone : payLen (BitVec.ofNat 4 op) (BitVec.ofNat 2 eng) = 0) :
    Frame.mk (0#24 ++ BitVec.ofNat 8 (op + 16 * eng)) [] = f :=
  Frame.eq_of_row hwf hop heng hfill
    (List.eq_nil_of_length_eq_zero ((Frame.payload_length_of_row hwf hop heng).trans hnone)).symm

theorem Frame.eq_of_fill_row (hfill : op = 7) :
    Frame.mk (f.len ++ BitVec.ofNat 8 (op + 16 * eng)) [] = f := by
  have hlength := Frame.payload_length_of_row hwf hop heng
  subst hfill
  rw [← Frame.cw_of_row hwf hop heng, ← List.eq_nil_of_length_eq_zero hlength]

end Row

/-- By the rows: each fixes the command word, and the operands give the payload back. -/
theorem encode_of_rowOf {f : Frame} {i : Instr} (hwf : f.wellFormed = true) (hrow : rowOf f = some i) :
    encode i = f := by
  unfold rowOf at hrow
  split at hrow
  case h_23 => cases hrow
  all_goals
    rename_i hop heng
    cases hrow
    have hlength := Frame.payload_length_of_row hwf hop heng
  case h_1 | h_2 | h_9 | h_17 => -- SEEDB.SM64 and SEEDI: one word
    exact Frame.eq_of_row hwf hop heng (by decide) (bytes64_le64 _ hlength)
  case h_8 => -- SEEDB.X128: two words
    exact Frame.eq_of_row hwf hop heng (by decide) (flatMap_bytes64_seedWord _ 2 hlength)
  case h_16 => -- SEEDB.X1024: sixteen words
    exact Frame.eq_of_row hwf hop heng (by decide) (flatMap_bytes64_seedWord _ 16 hlength)
  case h_6 | h_14 | h_21 => -- FILL
    exact Frame.eq_of_fill_row hwf hop heng rfl
  all_goals
    exact Frame.eq_of_row_without_payload hwf hop heng (by decide) rfl

/-- Settles O2: a frame that decodes passes the six tests, and its row and LEN give it back. -/
theorem encodeDecodeRoundTrip : Obligations.EncodeDecodeRoundTrip := by
  intro f i h
  obtain ⟨hwf, hrow⟩ := decode_eq_command_iff.mp h
  exact encode_of_rowOf hwf hrow

/-- Settles O5: each word and payload is the frame of its command, which decodes to it. -/
theorem sampleCommandWords : Obligations.SampleCommandWords :=
  ⟨decodeEncodeRoundTrip .seedeSm64, decodeEncodeRoundTrip .next64Sm64,
    decodeEncodeRoundTrip (.fillSm64 9), decodeEncodeRoundTrip .jumpSm64,
    decodeEncodeRoundTrip .seeddX128, decodeEncodeRoundTrip .next32X128,
    decodeEncodeRoundTrip (.fillX128 20), decodeEncodeRoundTrip .jumpX128,
    decodeEncodeRoundTrip (.seediX1024 1), decodeEncodeRoundTrip .next64X1024,
    decodeEncodeRoundTrip (.fillX1024 16777215), decodeEncodeRoundTrip .jumpX1024⟩

/-- Settles O7: the command word is read off the first four bytes, and its payload length says where
the frame ends. -/
theorem frameStringRoundTrip : Obligations.FrameStringRoundTrip := by
  intro f rest hfits
  have hcw : le32 (f.toBytes ++ rest) = f.cw := by
    rw [Frame.toBytes, List.append_assoc, le32_bytes32_append]
  have hdrop : (f.toBytes ++ rest).drop 4 = f.payload ++ rest := rfl
  have hend : (f.toBytes ++ rest).drop (4 + payLen f.op f.eng) = rest := by
    rw [← List.drop_drop, hdrop, ← hfits, List.drop_left]
  have hlong : ¬ (f.toBytes ++ rest).length < 4 + payLen f.op f.eng := by
    rw [← hfits, List.length_append, Frame.toBytes, List.length_append, Machine.bytes32_length]
    omega
  have hcut : Frame.mk f.cw ((f.payload ++ rest).take (payLen f.op f.eng)) = f := by
    rw [← hfits, List.take_left]
  have hop : Frame.op ⟨f.cw, []⟩ = f.op := rfl
  have heng : Frame.eng ⟨f.cw, []⟩ = f.eng := rfl
  simp only [Frame.cut, hcw, hdrop, hop, heng, hcut, hend, if_neg hlong]

end Sys2Proof

/-! ## Responses (30_encoding.md rules R70, R71, 44_contract_fill_jump.md rule R166) -/

namespace Sys2Proof.Machine

theorem bytes64_eq_map_div (v : Word) :
    bytes64 v = (List.range 8).map fun k => BitVec.ofNat 8 (v.toNat / 2 ^ (8 * k)) := by
  have hbytes : bytes64 v = (List.range 8).map fun k => v.extractLsb' (8 * k) 8 := rfl
  simp only [hbytes, BitVec.extractLsb', Nat.shiftRight_eq_div_pow]

theorem bytes32_eq_map_div (v : Half) :
    bytes32 v = (List.range 4).map fun k => BitVec.ofNat 8 (v.toNat / 2 ^ (8 * k)) := by
  have hbytes : bytes32 v = (List.range 4).map fun k => v.extractLsb' (8 * k) 8 := rfl
  simp only [hbytes, BitVec.extractLsb', Nat.shiftRight_eq_div_pow]

/-- The low bytes of a word are the bytes of its low half. -/
theorem bytes32_lo32 (v : Word) : bytes32 (lo32 v) = (bytes64 v).take 4 := by
  have hbyte : ∀ k ≤ 24, (lo32 v).extractLsb' k 8 = v.extractLsb' k 8 := fun k hk => by
    ext i hi
    simp [lo32, BitVec.getElem_extractLsb', show k + i < 32 by omega]
  simp [bytes32, bytes64, hbyte]

theorem fill_eight {E : Type} (draw : E → E × Word) (c : E) :
    fill draw 8 c = ((draw c).1, bytes64 (draw c).2) := rfl

theorem fill_four {E : Type} (draw : E → E × Word) (c : E) :
    fill draw 4 c = ((draw c).1, bytes32 (lo32 (draw c).2)) := by
  rw [bytes32_lo32]
  rfl

/-- From `s`, the states `u` and `v` are reached by one and the same change of state and one response
each, and the two responses are the same string (R71). -/
def SameString (s u v : State) : Prop :=
  ∃ (t : State) (r r' : Response), u = { t with outbox := s.outbox ++ [r] } ∧
    v = { t with outbox := s.outbox ++ [r'] } ∧ r.toBytes = r'.toBytes

/-- Two operations of the contract that write the same state back and answer with the same string
send that string from every state: both answer NotSeeded when the engine holds no words. -/
theorem contract_same_string {E : Type} {f g : E → E × Response} (c : Option E) {put : E → State}
    {s : State} (hput : ∀ d, (put d).outbox = s.outbox) (hstate : ∀ d, (f d).1 = (g d).1)
    (hbytes : ∀ d, (f d).2.toBytes = (g d).2.toBytes) :
    SameString s (contract f c put s) (contract g c put s) := by
  cases c with
  | none => exact ⟨s, _, _, rfl, rfl, rfl⟩
  | some d =>
    refine ⟨put (f d).1, (f d).2, (g d).2, ?_, ?_, hbytes d⟩
    · rw [← hput (f d).1]
      rfl
    · rw [← hput (g d).1, hstate d]
      rfl

/-- R166 (a). -/
theorem outFill_matches_outNext64 {E : Type} (draw : E → E × Word) (c : Option E) {put : E → State}
    {s : State} (hput : ∀ d, (put d).outbox = s.outbox) :
    SameString s (outFill draw 8 c put s) (outNext64 draw c put s) := by
  rw [outFill_eq_contract, outNext64_eq_contract]
  refine contract_same_string c hput (fun d => by rw [fill_eight]) fun d => ?_
  rw [fill_eight]
  rfl

/-- R166 (b). -/
theorem outFill_matches_outNext32 {E : Type} (draw : E → E × Word) (c : Option E) {put : E → State}
    {s : State} (hput : ∀ d, (put d).outbox = s.outbox) :
    SameString s (outFill draw 4 c put s) (outNext32 draw c put s) := by
  rw [outFill_eq_contract, outNext32_eq_contract]
  refine contract_same_string c hput (fun d => by rw [fill_four]) fun d => ?_
  rw [fill_four]
  rfl

/-- What two commands do, when it is the same string, at the commands themselves. -/
theorem SameString.of_exec {i j : Instr} {s u v : State} (h : SameString s u v)
    (hu : exec i s = .next u) (hv : exec j s = .next v) :
    ∃ (t : State) (r r' : Response), exec i s = .next { t with outbox := s.outbox ++ [r] } ∧
      exec j s = .next { t with outbox := s.outbox ++ [r'] } ∧ r.toBytes = r'.toBytes := by
  obtain ⟨t, r, r', rfl, rfl, hbytes⟩ := h
  exact ⟨t, r, r', hu, hv, hbytes⟩

/-- Settles O44: the pairs engine by engine, and the strings by the digits of the word. -/
theorem fillMatchesNext : Obligations.FillMatchesNext := by
  refine ⟨fun s p hp => ?_, ⟨rfl, rfl, rfl, rfl, rfl⟩, fun st => rfl, fun st v => ?_,
    fun st v => ?_, fun st b => rfl⟩
  · simp only [List.mem_cons, List.not_mem_nil, or_false] at hp
    rcases hp with rfl | rfl | rfl | rfl | rfl | rfl
    · exact (outFill_matches_outNext64 Sm.draw s.sm s.setSm_outbox).of_exec
        (exec_fillSm64 s 8) (exec_next64Sm64 s)
    · exact (outFill_matches_outNext64 Xo.draw s.xo s.setXo_outbox).of_exec
        (exec_fillX128 s 8) (exec_next64X128 s)
    · exact (outFill_matches_outNext64 Xs.draw s.xs s.setXs_outbox).of_exec
        (exec_fillX1024 s 8) (exec_next64X1024 s)
    · exact (outFill_matches_outNext32 Sm.draw s.sm s.setSm_outbox).of_exec
        (exec_fillSm64 s 4) (exec_next32Sm64 s)
    · exact (outFill_matches_outNext32 Xo.draw s.xo s.setXo_outbox).of_exec
        (exec_fillX128 s 4) (exec_next32X128 s)
    · exact (outFill_matches_outNext32 Xs.draw s.xs s.setXs_outbox).of_exec
        (exec_fillX1024 s 4) (exec_next32X1024 s)
  · rw [← bytes64_eq_map_div]
    rfl
  · rw [← bytes32_eq_map_div]
    rfl

/-! ## A command that has sent no response yet (60_exceptions.md rule R213) -/

/-- A SEEDE.X128 that sends nothing after its draw is still executing. -/
theorem State.seedXoFrom_redraw (s : State) (a : Option (List Byte))
    (hsilent : (s.seedXoFrom a).outbox = s.outbox) : (s.seedXoFrom a).redraw = some .x128 := by
  rcases s.seedXoFrom_cases a with ⟨-, h⟩ | ⟨b, -, -, h⟩ | ⟨b, -, -, h⟩ <;> rw [h] at hsilent ⊢
  · simp at hsilent
  · rfl
  · simp at hsilent

/-- A SEEDE.X1024 that sends nothing after its draw is still executing. -/
theorem State.seedXsFrom_redraw (s : State) (a : Option (List Byte))
    (hsilent : (s.seedXsFrom a).outbox = s.outbox) : (s.seedXsFrom a).redraw = some .x1024 := by
  rcases s.seedXsFrom_cases a with ⟨-, h⟩ | ⟨b, -, -, h⟩ | ⟨b, -, -, h⟩ <;> rw [h] at hsilent ⊢
  · simp at hsilent
  · rfl
  · simp at hsilent

/-- Only a SEEDE that can draw again leaves the outbox as it was, and then it goes on executing. -/
theorem exec_redraws {i : Instr} {s t : State} (h : exec i s = .next t)
    (hsilent : t.outbox = s.outbox) :
    (i = .seedeX128 ∧ t.redraw = some .x128) ∨ (i = .seedeX1024 ∧ t.redraw = some .x1024) := by
  by_cases hX128 : i = .seedeX128
  · subst hX128
    cases (exec_seedeX128 s).symm.trans h
    exact .inl ⟨rfl, State.seedXoFrom_redraw _ _ (hsilent.trans (s.entDraw_outbox 16).symm)⟩
  by_cases hX1024 : i = .seedeX1024
  · subst hX1024
    cases (exec_seedeX1024 s).symm.trans h
    exact .inr ⟨rfl, State.seedXsFrom_redraw _ _ (hsilent.trans (s.entDraw_outbox 128).symm)⟩
  obtain ⟨u, hu, -, -, r, hsent⟩ := exec_answered i s hX128 hX1024
  cases hu.symm.trans h
  simp [hsilent] at hsent

/-- Settles O49: every effect of a command but a redraw sends one response. -/
theorem oneResponsePerFrame : Obligations.OneResponsePerFrame := by
  intro i s t h
  cases effect_of_exec h with
  | failed st _ _ hout => exact .inl ⟨_, Response.failed_wellFormed st, hout⟩
  | redraws _ hout => exact .inr ⟨hout, exec_redraws h hout⟩
  | seeded _ _ _ _ hout => exact .inl ⟨_, rfl, hout⟩
  | advanced _ _ r _ _ _ _ hout _ hr => exact .inl ⟨r, hr, hout⟩

end Sys2Proof.Machine

/-! ## Engine SM64 and the seeds expanded by it (41_splitmix64.md rules R100 to R109) -/

namespace Sys2Proof.Machine

theorem xorShr_eq_zero_iff {k : Nat} (hk : k ≠ 0) (x : Word) : xorShr k x = 0 ↔ x = 0 := by
  refine ⟨fun h => ?_, fun h => by simp [h, xorShr]⟩
  have hshift := congrArg BitVec.toNat (BitVec.xor_eq_zero_iff.mp h)
  rw [BitVec.toNat_ushiftRight, Nat.shiftRight_eq_div_pow, eq_comm, Nat.div_eq_self] at hshift
  have hpow : 2 ^ k ≠ 1 := by simpa using hk
  exact BitVec.eq_of_toNat_eq (hshift.resolve_right hpow)

theorem xorShr_xor (k : Nat) (x y : Word) : xorShr k (x ^^^ y) = xorShr k x ^^^ xorShr k y := by
  simp only [xorShr, BitVec.ushiftRight_xor_distrib]
  ac_rfl

/-- A xor-shift is linear over GF(2) and only zero is sent to zero (R108 (a)). -/
theorem xorShr_injective {k : Nat} (hk : k ≠ 0) : Function.Injective (xorShr k) := by
  intro x y h
  have hxor : xorShr k (x ^^^ y) = 0 := by rw [xorShr_xor, h]; exact BitVec.xor_self
  exact BitVec.xor_eq_zero_iff.mp ((xorShr_eq_zero_iff hk _).mp hxor)

/-- An odd factor can be cancelled modulo 2^64 (R108 (a)). -/
theorem mul_odd_injective {c : Word} (hc : Odd c.toNat) : Function.Injective (· * c) := by
  intro x y h
  have hmod : x.toNat * c.toNat ≡ y.toNat * c.toNat [MOD 2 ^ 64] := by
    simpa only [BitVec.toNat_mul, Nat.ModEq] using congrArg BitVec.toNat h
  have hcoprime : Nat.Coprime (2 ^ 64) c.toNat := (Nat.coprime_two_left.mpr hc).pow_left 64
  exact BitVec.eq_of_toNat_eq
    ((hmod.cancel_right_of_coprime hcoprime).eq_of_lt_of_lt x.isLt y.isLt)

theorem mix64_injective : Function.Injective mix64 := by
  have hmix1 : Function.Injective (· * mix1) := mul_odd_injective (by decide)
  have hmix2 : Function.Injective (· * mix2) := mul_odd_injective (by decide)
  intro x y h
  exact xorShr_injective (by decide) (hmix1 (xorShr_injective (by decide)
    (hmix2 (xorShr_injective (by decide) h))))

theorem gamma_mul_injective : Function.Injective (· * gamma) := mul_odd_injective (by decide)

theorem mix64_eq_zero_iff (z : Word) : mix64 z = 0 ↔ z = 0 :=
  mix64_injective.eq_iff' (by decide)

/-- Settles O21: each of the five stages is injective, and the words are finitely many. -/
theorem mixIsBijective : Obligations.MixIsBijective :=
  ⟨mix64_injective.bijective_of_finite, mix64_eq_zero_iff⟩

/-- The closed form of R172 is the iterated draw of R170. -/
theorem Sm.jump_eq_steps (J : Nat) (e : Sm) : e.jump J = steps Sm.draw J e := by
  induction J generalizing e with
  | zero => simp [Sm.jump, steps_zero]
  | succ J ih =>
    rw [steps_succ, ← ih]
    simp only [Sm.jump, Sm.draw, Sm.mk.injEq, Nat.add_comm J 1, BitVec.ofNat_add, BitVec.add_mul,
      BitVec.add_assoc]
    rw [BitVec.one_mul]

/-- Settles O22: `n` draws add `n * GAMMA`, which is zero when `n` is zero modulo 2^64. -/
theorem sm64StatePeriod : Obligations.Sm64StatePeriod := by
  rintro n ⟨x⟩
  calc steps Sm.draw n ⟨x⟩ = ⟨x⟩
    _ ↔ x + BitVec.ofNat 64 n * gamma = x := by rw [← Sm.jump_eq_steps, Sm.jump, Sm.mk.injEq]
    _ ↔ BitVec.ofNat 64 n * gamma = 0 := add_eq_left
    _ ↔ BitVec.ofNat 64 n = 0 := gamma_mul_injective.eq_iff' BitVec.zero_mul
    _ ↔ 2 ^ 64 ∣ n := by rw [← BitVec.toNat_inj, BitVec.toNat_ofNat, Nat.dvd_iff_mod_eq_zero]; rfl

/-- Two successive outputs of a SplitMix64 differ, so they are never both zero (R108 (d)). -/
theorem mix64_add_gamma_ne (z : Word) : mix64 (z + gamma) ≠ mix64 z := by
  intro h
  exact absurd (add_eq_left.mp (mix64_injective h)) (by decide)

/-- A payload of eight bytes is the one that `encode` writes for the word it holds. -/
theorem decode_of_encode_word {i : Word → Instr} {cw : BitVec 32}
    (hi : ∀ w, encode (i w) = ⟨cw, bytes64 w⟩) (b : List Byte) (hb : b.length = 8) :
    decode ⟨cw, b⟩ = .command (i (le64 b)) := by
  rw [← decodeEncodeRoundTrip, hi, bytes64_le64 b hb]

/-- Settles O24: the two words are successive outputs, so they are not both zero. -/
theorem seedX128FromInteger : Obligations.SeedX128FromInteger := by
  refine ⟨decode_of_encode_word fun _ => rfl, fun v s => ?_⟩
  rw [exec_seediX128]
  rcases s.seedXo_cases ⟨mix64 (v + gamma), mix64 (v + gamma + gamma)⟩ with ⟨hzero, -⟩ | ⟨-, hseed⟩
  · obtain ⟨hfirst, hsecond⟩ := (Xo.isZero_iff _).mp hzero
    exact absurd (hsecond.trans hfirst.symm) (mix64_add_gamma_ne _)
  · rw [hseed]
    rfl

/-- Settles O33: words 0 and 1 are successive outputs, so the sixteen are not all zero. -/
theorem seedX1024FromInteger : Obligations.SeedX1024FromInteger := by
  refine ⟨decode_of_encode_word fun _ => rfl, fun v s => ?_⟩
  rw [exec_seediX1024]
  rcases s.seedXs_cases (words16 fun i => (expand v 16).getD i.toNat 0) with
    ⟨hzero, -⟩ | ⟨-, hseed⟩
  · rw [Xs.isZero_iff_word] at hzero
    have hfirst : mix64 (v + gamma) = 0 := hzero 0
    have hsecond : mix64 (v + gamma + gamma) = 0 := hzero 1
    exact absurd (hsecond.trans hfirst.symm) (mix64_add_gamma_ne _)
  · have hwords : (fun i : BitVec 4 => (expand v 16).getD i.toNat 0) =
        fun i => mix64 (v + BitVec.ofNat 64 (i.toNat + 1) * gamma) :=
      funext fun i => expand_getD 16 v i.toNat i.isLt
    rw [hseed, hwords]
    rfl

/-- Settles O15: the payload is the word's own, and SM64 takes every word. -/
theorem seedSm64FromPayload : Obligations.SeedSm64FromPayload :=
  ⟨fun b hb => ⟨decode_of_encode_word (fun _ => rfl) b hb, decode_of_encode_word (fun _ => rfl) b hb⟩,
    fun w s => ⟨exec_seedbSm64 s w, exec_seediSm64 s w⟩⟩

/-- Settles O16: what the draw answers is seeded as it is. -/
theorem seedSm64FromEntropy : Obligations.SeedSm64FromEntropy := by
  intro s t a hdraw
  rw [exec_seedeSm64 s t a hdraw]
  constructor
  · rintro rfl
    rfl
  · rintro b rfl
    rfl

theorem lo32_eq_setWidth (v : Word) : lo32 v = v.setWidth 32 := by
  apply BitVec.eq_of_toNat_eq
  simp [lo32, BitVec.extractLsb'_toNat]

/-- Settles O17: the contract's two cases, at the draw of SM64. -/
theorem drawSm64Words : Obligations.DrawSm64Words := by
  intro s
  constructor
  · intro e hseeded
    rw [exec_next64Sm64, exec_next32Sm64, hseeded, outNext64_some, outNext32_some, lo32_eq_setWidth]
    exact ⟨rfl, rfl⟩
  · intro hunseeded
    have hnext64 : exec .next64Sm64 s = .next (s.raise .notSeeded) := by
      rw [exec_next64Sm64, hunseeded, outNext64_none]
    have hnext32 : exec .next32Sm64 s = .next (s.raise .notSeeded) := by
      rw [exec_next32Sm64, hunseeded, outNext32_none]
    exact ⟨hnext64, hnext32⟩

end Sys2Proof.Machine

/-! ## Engine X128 (42_xoroshiro128plus.md rules R120 to R128) -/

namespace Sys2Proof.Laws

/-- A linear step that sends only zero to zero is injective. -/
theorem Gf2.Additive.injective {V : Type} {G : Gf2 V} {T : V → V} (hT : G.Additive T)
    (hkernel : ∀ v, T v = G.zero → v = G.zero) : Function.Injective T := by
  intro a b h
  have hsum : G.add a b = G.zero := hkernel _ (by rw [hT, h, G.add_self])
  rw [← G.add_cancel a b, hsum, G.add_zero]

end Sys2Proof.Laws

namespace Sys2Proof.Machine

theorem Xo.isZero_iff_eq_zero (e : Xo) : e.isZero = true ↔ e = Laws.xoGf2.zero :=
  e.isZero_iff.trans (Xo.mk.injEq ..).to_iff.symm

theorem Xo.finite : Finite Xo :=
  Finite.of_injective (fun e : Xo => (e.s0, e.s1)) <| by
    rintro ⟨a0, a1⟩ ⟨b0, b1⟩ h
    cases h
    rfl

theorem xoStep_injective : Function.Injective Laws.xoStep := by
  refine Laws.xoStep_additive.injective fun e h => ?_
  rwa [← Xo.isZero_iff_eq_zero, Laws.xoStep, Xo.draw_isZero, Xo.isZero_iff_eq_zero] at h

/-- Settles O31: the step is linear and only zero is sent to zero, so it is injective, and the pairs
are finitely many. -/
theorem x128StepIsBijective : Obligations.X128StepIsBijective :=
  haveI := Xo.finite
  ⟨xoStep_injective.bijective_of_finite, Xo.draw_isZero⟩

/-! ### Seeds that are zero and seeds that are not (R122, R124, R144) -/

section Seeds

variable (s : State) {w0 w1 : Word} {b : List Byte}

theorem State.seedXo_zero (hzero : w0 = 0 ∧ w1 = 0) : s.seedXo ⟨w0, w1⟩ = s.raise .invalidSeed :=
  if_pos ((Xo.isZero_iff _).mpr hzero)

theorem State.seedXo_nonzero (hseed : ¬(w0 = 0 ∧ w1 = 0)) :
    s.seedXo ⟨w0, w1⟩ = (s.setXo ⟨w0, w1⟩).respond .done :=
  if_neg fun h => hseed ((Xo.isZero_iff _).mp h)

theorem State.seedXoFrom_zero (hzero : le64 b = 0 ∧ le64 (b.drop 8) = 0) :
    s.seedXoFrom (some b) = s.setRedraw (some .x128) :=
  if_pos ((Xo.isZero_iff _).mpr hzero)

theorem State.seedXoFrom_nonzero (hseed : ¬(le64 b = 0 ∧ le64 (b.drop 8) = 0)) :
    s.seedXoFrom (some b) =
      ((s.setRedraw none).setXo ⟨le64 b, le64 (b.drop 8)⟩).respond .done :=
  if_neg fun h => hseed ((Xo.isZero_iff _).mp h)

theorem State.seedXsFrom_zero (hzero : seedWords16 b = words16 fun _ => 0) :
    s.seedXsFrom (some b) = s.setRedraw (some .x1024) :=
  if_pos ((Xs.isZero_iff_words _).mpr hzero)

theorem State.seedXsFrom_nonzero (hseed : seedWords16 b ≠ words16 fun _ => 0) :
    s.seedXsFrom (some b) =
      ((s.setRedraw none).setXs ⟨seedWords16 b, 0⟩).respond .done :=
  if_neg fun h => hseed ((Xs.isZero_iff_words _).mp h)

end Seeds

/-- Settles O25: by what SEEDE.X128 does with the bytes it has drawn. -/
theorem seedX128FromEntropy : Obligations.SeedX128FromEntropy := by
  intro s t a hdraw
  rw [exec_seedeX128, hdraw]
  refine ⟨?_, ?_, ?_⟩
  · rintro rfl
    rfl
  · rintro b rfl hzero
    exact congrArg _ (t.seedXoFrom_zero hzero)
  · rintro b rfl hseed
    exact congrArg _ (t.seedXoFrom_nonzero hseed)

/-! ### The redraw loop (60_exceptions.md rule R213) -/

section RedrawLoop

variable {s : State} {rest : List EntAnswer}

theorem State.entDraw_of_lined {a : EntAnswer} (h : s.entropy = a :: rest) (n : Nat) :
    s.entDraw n = (EntAnswer.take n a, { s with entropy := rest }) := by
  unfold State.entDraw
  rw [h]

/-- A SEEDE.X128 that is still executing draws the next answer lined up. -/
theorem step_redraw_x128 {b : Vector Byte 128} (hredraw : s.redraw = some .x128)
    (h : s.entropy = .ok b :: rest) :
    step s = .next (State.seedXoFrom (some (b.toList.take 16)) { s with entropy := rest }) := by
  rw [step_of_fetch s _ _ (s.fetch_x128 hredraw)]
  dsimp only
  rw [exec_seedeX128, State.entDraw_of_lined h]
  rfl

/-- A SEEDE.X1024 that is still executing draws the next answer lined up. -/
theorem step_redraw_x1024 {b : Vector Byte 128} (hredraw : s.redraw = some .x1024)
    (h : s.entropy = .ok b :: rest) :
    step s = .next (State.seedXsFrom (some b.toList) { s with entropy := rest }) := by
  rw [step_of_fetch s _ _ (s.fetch_x1024 hredraw)]
  dsimp only
  rw [exec_seedeX1024, State.entDraw_of_lined h]
  simp only [EntAnswer.take, List.take_of_length_le (Vector.length_toList (xs := b)).le]

/-- The answer that is zero in every byte. -/
def zeroAnswer : EntAnswer := .ok (Vector.replicate 128 0)

theorem step_zeroAnswer_x128 (hredraw : s.redraw = some .x128)
    (h : s.entropy = zeroAnswer :: rest) : step s = .next { s with entropy := rest } := by
  rw [step_redraw_x128 hredraw h, State.seedXoFrom_zero _ (by decide), ← hredraw]
  rfl

theorem step_zeroAnswer_x1024 (hredraw : s.redraw = some .x1024)
    (h : s.entropy = zeroAnswer :: rest) : step s = .next { s with entropy := rest } := by
  rw [step_redraw_x1024 hredraw h, State.seedXsFrom_zero _ (by decide), ← hredraw]
  rfl

theorem step_seeds_x128 {b : Vector Byte 128} (hredraw : s.redraw = some .x128)
    (h : s.entropy = .ok b :: rest)
    (hseed : ¬(le64 (b.toList.take 16) = 0 ∧ le64 ((b.toList.take 16).drop 8) = 0)) :
    step s = .next { s with
      entropy := rest, redraw := none,
      xo := some ⟨le64 (b.toList.take 16), le64 ((b.toList.take 16).drop 8)⟩,
      outbox := s.outbox ++ [.done] } := by
  rw [step_redraw_x128 hredraw h, State.seedXoFrom_nonzero _ hseed]
  rfl

theorem step_seeds_x1024 {b : Vector Byte 128} (hredraw : s.redraw = some .x1024)
    (h : s.entropy = .ok b :: rest) (hseed : seedWords16 b.toList ≠ words16 fun _ => 0) :
    step s = .next { s with
      entropy := rest, redraw := none, xs := some ⟨seedWords16 b.toList, 0⟩,
      outbox := s.outbox ++ [.done] } := by
  rw [step_redraw_x1024 hredraw h, State.seedXsFrom_nonzero _ hseed]
  rfl

/-- A SEEDE whose step on an all-zero answer only uses up the answer goes through `k` of them in `k`
steps, and then goes on from the rest. -/
theorem runSteps_zeroAnswers {r : Redraw}
    (hstep : ∀ {s : State} {rest : List EntAnswer}, s.redraw = some r →
      s.entropy = zeroAnswer :: rest → step s = .next { s with entropy := rest })
    (k j : Nat) (hredraw : s.redraw = some r) (h : s.entropy = List.replicate k zeroAnswer ++ rest) :
    runSteps (k + j) s = runSteps j { s with entropy := rest } := by
  induction k generalizing s with
  | zero =>
    rw [List.replicate_zero, List.nil_append] at h
    rw [Nat.zero_add, ← h]
  | succ k ih =>
    rw [List.replicate_succ, List.cons_append] at h
    rw [Nat.succ_add, runSteps_succ (hstep hredraw h)]
    exact ih hredraw rfl

theorem runSteps_one {t : State} (h : step s = .next t) : runSteps 1 s = .next t :=
  runSteps_succ h 0

end RedrawLoop

/-- Settles O55: the all-zero answers are used up one by one, and the step on the next answer seeds. -/
theorem redrawEndsAtFirstNonZeroSeed : Obligations.RedrawEndsAtFirstNonZeroSeed := by
  intro k s b rest h
  constructor
  · intro hredraw
    have hrun := fun j => runSteps_zeroAnswers step_zeroAnswer_x128 k j hredraw h
    exact ⟨hrun 0, fun hseed => (hrun 1).trans (runSteps_one (step_seeds_x128 hredraw rfl hseed))⟩
  · intro hredraw
    have hrun := fun j => runSteps_zeroAnswers step_zeroAnswer_x1024 k j hredraw h
    exact ⟨hrun 0, fun hseed => (hrun 1).trans (runSteps_one (step_seeds_x1024 hredraw rfl hseed))⟩

/-! ### Seeding X128 from bytes, and its draws (R121, R122, R126, R127) -/

/-- A payload of sixteen bytes is the one that `encode` writes for the two words it holds. -/
theorem decode_seedbX128 (b : List Byte) (hb : b.length = 16) :
    decode ⟨0x00000011#32, b⟩ = .command (.seedbX128 (le64 (b.take 8)) (le64 (b.drop 8))) := by
  rw [← decodeEncodeRoundTrip, encode, bytes64_le64 _ (by simp [hb]), bytes64_le64 _ (by simp [hb]),
    List.take_append_drop]

/-- Settles O23: the payload is the pair's own, and X128 takes every pair but (0, 0). -/
theorem seedX128FromBytes : Obligations.SeedX128FromBytes := by
  refine ⟨decode_seedbX128, fun w0 w1 s => ?_⟩
  rw [exec_seedbX128]
  exact ⟨fun hseed => congrArg _ (s.seedXo_nonzero hseed),
    fun hzero => congrArg _ (s.seedXo_zero hzero)⟩

/-- Settles O27: the contract's two cases, at the draw of X128; a rotation is the or of two shifts by
definition. -/
theorem drawX128Words : Obligations.DrawX128Words := by
  intro s
  constructor
  · intro e hseeded
    rw [exec_next64X128, exec_next32X128, hseeded, outNext64_some, outNext32_some, lo32_eq_setWidth]
    exact ⟨rfl, rfl⟩
  · intro hunseeded
    have hnext64 : exec .next64X128 s = .next (s.raise .notSeeded) := by
      rw [exec_next64X128, hunseeded, outNext64_none]
    have hnext32 : exec .next32X128 s = .next (s.raise .notSeeded) := by
      rw [exec_next32X128, hunseeded, outNext32_none]
    exact ⟨hnext64, hnext32⟩

end Sys2Proof.Machine

/-! ## Engine X1024 (43_xorshift1024star.md rules R140 to R147) -/

namespace Sys2Proof.Machine

open Laws

/-! ### The words relative to the pointer (R147) -/

theorem Xs.relative_eq_iff (e e' : Xs) :
    e.relative = e'.relative ↔ ∀ i, e.word (e.p + i) = e'.word (e'.p + i) := by
  constructor
  · intro h i
    rw [← relative_get, h, relative_get]
  · intro h
    refine words_ext _ _ fun i => ?_
    rw [relative_get, relative_get, h i]

/-- The converse of `Laws.ofRelative_relative`. -/
theorem Xs.relative_ofRelative (r : Vector Word 16) (p : BitVec 4) :
    (Xs.ofRelative r p).relative = r := by
  refine words_ext _ _ fun i => ?_
  have hindex : p + i - p = i := by rw [BitVec.add_comm, BitVec.add_sub_cancel]
  rw [relative_get, Xs.word, Xs.ofRelative, words16_get]
  exact congrArg (fun j : BitVec 4 => r[j.toNat]) hindex

theorem Xs.isZero_iff_relative (e : Xs) : e.isZero = true ↔ e.relative = wordsGf2.zero := by
  rw [Xs.isZero_iff_word]
  constructor
  · intro h
    refine words_ext _ _ fun i => ?_
    rw [relative_get, wordsGf2_zero, h]
  · intro h i
    have hi : e.p + (i - e.p) = i := by rw [BitVec.add_comm, BitVec.sub_add_cancel]
    rw [← hi, ← relative_get, h, wordsGf2_zero]

/-- Only the zero words are sent to zero by a draw, and a draw acts on them by `T` (R29, R147 (a)). -/
theorem relStep_injective : Function.Injective relStep := by
  refine relStep_additive.injective fun r h => ?_
  rwa [← Xs.relative_ofRelative r 0, ← relative_draw, ← Xs.isZero_iff_relative, Xs.draw_isZero,
    Xs.isZero_iff_relative, Xs.relative_ofRelative] at h

/-- A state is its pointer and its words relative to it. -/
theorem Xs.eq_of_relative {e e' : Xs} (hp : e.p = e'.p) (hr : e.relative = e'.relative) : e = e' := by
  rw [← ofRelative_relative e, hp, hr, ofRelative_relative]

theorem Xs.draw_injective : Function.Injective fun e : Xs => e.draw.1 := by
  intro e e' h
  have hp : e.p = e'.p := (BitVec.add_left_inj 1).mp (congrArg Xs.p h)
  have hr : relStep e.relative = relStep e'.relative := by
    rw [← relative_draw, ← relative_draw]
    exact congrArg Xs.relative h
  exact Xs.eq_of_relative hp (relStep_injective hr)

theorem Xs.finite : Finite Xs :=
  Finite.of_injective (fun e : Xs => (e.word, e.p)) <| by
    rintro ⟨s, p⟩ ⟨s', p'⟩ h
    obtain ⟨hword, hp⟩ := Prod.mk.inj h
    exact (Xs.mk.injEq ..).mpr ⟨words_ext _ _ (congrFun hword), hp⟩

/-- Settles O39: the step is injective on the words relative to the pointer and on the pointer, and
the states are finitely many. -/
theorem x1024StepIsBijective : Obligations.X1024StepIsBijective :=
  haveI := Xs.finite
  ⟨Xs.draw_injective.bijective_of_finite, Xs.draw_isZero⟩

/-- Settles O40: the pointer counts the draws, in four bits. -/
theorem x1024PointerAfterDraws : Obligations.X1024PointerAfterDraws := by
  intro k e
  rw [Xs.steps_pointer, BitVec.toNat_add, BitVec.toNat_ofNat, Nat.add_mod_mod]

/-- The output of a draw, from the words relative to the pointer (R141). -/
theorem Xs.draw_output (e : Xs) : e.draw.2 =
    newWord e.relative[(0 : BitVec 4).toNat] e.relative[(1 : BitVec 4).toNat] * star := by
  have hzero : e.p + 0 = e.p := BitVec.add_zero e.p
  rw [relative_get, relative_get, hzero]
  rfl

theorem Xs.outputs_eq_of_relative {e e' : Xs} (h : e.relative = e'.relative) (k : Nat) :
    outputs Xs.draw k e = outputs Xs.draw k e' := by
  induction k generalizing e e' with
  | zero => rfl
  | succ k ih =>
    have hnext : e.draw.1.relative = e'.draw.1.relative := by rw [relative_draw, relative_draw, h]
    rw [outputs, outputs, ih hnext, Xs.draw_output, Xs.draw_output, h]

/-- Settles O41: a draw's output and the relative words after it are functions of the relative words
before it. -/
theorem x1024RelativeWordsDecide : Obligations.X1024RelativeWordsDecide := by
  intro k e e' h
  rw [← Xs.relative_eq_iff] at h ⊢
  exact ⟨Xs.outputs_eq_of_relative h k, by rw [relative_steps, relative_steps, h]⟩

/-! ### Draws (R141, R145, R146) -/

/-- The state after a draw, its words read one by one. -/
theorem Xs.draw_state (e : Xs) : e.draw.1 = ⟨words16 fun i =>
    if i = e.p + 1 then newWord (e.word e.p) (e.word (e.p + 1)) else e.word i, e.p + 1⟩ := by
  refine (Xs.mk.injEq ..).mpr ⟨words_ext _ _ fun i => ?_, rfl⟩
  rw [words16_get]
  exact xs_draw_word e i

/-- Settles O35: the contract's two cases, at the draw of X1024. -/
theorem drawX1024Words : Obligations.DrawX1024Words := by
  intro s
  constructor
  · intro e hseeded
    rw [exec_next64X1024, exec_next32X1024, hseeded, outNext64_some, outNext32_some,
      lo32_eq_setWidth, Xs.draw_state]
    exact ⟨rfl, rfl⟩
  · intro hunseeded
    have hnext64 : exec .next64X1024 s = .next (s.raise .notSeeded) := by
      rw [exec_next64X1024, hunseeded, outNext64_none]
    have hnext32 : exec .next32X1024 s = .next (s.raise .notSeeded) := by
      rw [exec_next32X1024, hunseeded, outNext32_none]
    exact ⟨hnext64, hnext32⟩

/-! ### Seeding (R142, R144) -/

section Seeds

variable (s : State) {ws : Vector Word 16}

theorem State.seedXs_zero (hzero : ws = words16 fun _ => 0) :
    s.seedXs ws = s.raise .invalidSeed :=
  if_pos ((Xs.isZero_iff_words _).mpr hzero)

theorem State.seedXs_nonzero (hseed : ws ≠ words16 fun _ => 0) :
    s.seedXs ws = (s.setXs ⟨ws, 0⟩).respond .done :=
  if_neg fun h => hseed ((Xs.isZero_iff_words _).mp h)

end Seeds

/-- LE64 reads the first eight bytes only. -/
theorem le64_take_eight (b : List Byte) : le64 (b.take 8) = le64 b := by
  rw [le64, le64, List.take_take, Nat.min_self]

/-- A payload of 128 bytes is the one that `encode` writes for the sixteen words it holds. -/
theorem decode_seedbX1024 (b : List Byte) (hb : b.length = 128) :
    decode ⟨0x00000021#32, b⟩ = .command (.seedbX1024 (seedWords16 b)) := by
  have hbytes : seedBytes16 (seedWords16 b) = b := flatMap_bytes64_seedWord b 16 hb
  rw [← decodeEncodeRoundTrip, encode, hbytes]

/-- Settles O32: the payload is the words' own, and X1024 takes all words but the all-zero ones. -/
theorem seedX1024FromBytes : Obligations.SeedX1024FromBytes := by
  refine ⟨fun b hb => ?_, fun ws s => ?_⟩
  · simp only [le64_take_eight]
    exact decode_seedbX1024 b hb
  · rw [exec_seedbX1024]
    exact ⟨fun hseed => congrArg _ (s.seedXs_nonzero hseed),
      fun hzero => congrArg _ (s.seedXs_zero hzero)⟩

/-- Settles O34: by what SEEDE.X1024 does with the bytes it has drawn. -/
theorem seedX1024FromEntropy : Obligations.SeedX1024FromEntropy := by
  intro s t a hdraw
  rw [exec_seedeX1024, hdraw]
  refine ⟨?_, ?_, ?_⟩
  · rintro rfl
    rfl
  · rintro b rfl hzero
    exact congrArg _ (t.seedXsFrom_zero hzero)
  · rintro b rfl hseed
    exact congrArg _ (t.seedXsFrom_nonzero hseed)

end Sys2Proof.Machine

/-! ## The generic contract: FILL and JUMP (44_contract_fill_jump.md) -/

namespace Sys2Proof.Machine

/-! ### The draws of a FILL (R160, R162, R166) -/

section Fill

variable {E : Type} (draw : E → E × Word)

theorem outputs_add (j k : Nat) (c : E) :
    outputs draw (j + k) c = outputs draw j c ++ outputs draw k (steps draw j c) := by
  induction j generalizing c with
  | zero => rw [Nat.zero_add]; rfl
  | succ j ih => rw [Nat.succ_add, outputs, outputs, ih, steps_succ, List.cons_append]

/-- The bytes of `k` draws, each draw low byte first. -/
def drawnBytes (k : Nat) (c : E) : List Byte := (outputs draw k c).flatMap bytes64

theorem drawnBytes_succ (k : Nat) (c : E) :
    drawnBytes draw (k + 1) c = bytes64 (draw c).2 ++ drawnBytes draw k (draw c).1 := by
  rw [drawnBytes, outputs, List.flatMap_cons, drawnBytes]

theorem drawnBytes_add (j k : Nat) (c : E) :
    drawnBytes draw (j + k) c = drawnBytes draw j c ++ drawnBytes draw k (steps draw j c) := by
  rw [drawnBytes, outputs_add, List.flatMap_append, drawnBytes, drawnBytes]

theorem drawnBytes_length (k : Nat) (c : E) : (drawnBytes draw k c).length = 8 * k := by
  induction k generalizing c with
  | zero => rfl
  | succ k ih =>
    rw [drawnBytes_succ, List.length_append, bytes64_length, ih, Nat.mul_succ, Nat.add_comm]

/-- The loop of R162 emits the first `m` of the bytes it draws: what a word gives is cut at `m`, and
what is left to emit is cut from the later words. -/
theorem fillLoop_eq_take (k m : Nat) (c : E) :
    (fillLoop draw k m c).2 = (drawnBytes draw k c).take m := by
  induction k generalizing m c with
  | zero => exact List.take_nil.symm
  | succ k ih =>
    have hword : (bytes64 (draw c).2).take (min 8 m) = (bytes64 (draw c).2).take m := by
      rw [List.take_eq_take_min (i := m), bytes64_length, Nat.min_comm]
    rw [fillLoop_bytes, ih, hword, drawnBytes_succ, List.take_append, bytes64_length]

theorem fill_bytes (n : Nat) (c : E) :
    (fill draw n c).2 = (drawnBytes draw ((n + 7) / 8) c).take n :=
  fillLoop_eq_take draw _ n c

theorem fill_bytes_length (n : Nat) (c : E) : (fill draw n c).2.length = n := by
  rw [fill_bytes, List.length_take, drawnBytes_length]
  omega

/-- A FILL of whole words drops no byte it draws. -/
theorem fill_whole_words (q : Nat) (c : E) :
    fill draw (8 * q) c = (steps draw q c, drawnBytes draw q c) := by
  have hdraws : (8 * q + 7) / 8 = q := by omega
  refine Prod.ext ?_ ?_
  · rw [fill_state, hdraws]
  · rw [fill_bytes, hdraws, ← drawnBytes_length draw q c, List.take_length]

/-- R166 (c), in whole words: the draws of the second FILL follow those of the first. -/
theorem fill_split (q b : Nat) (c : E) :
    fill draw (8 * q + b) c = ((fill draw b (steps draw q c)).1,
      drawnBytes draw q c ++ (fill draw b (steps draw q c)).2) := by
  have hdraws : (8 * q + b + 7) / 8 = q + (b + 7) / 8 := by omega
  refine Prod.ext ?_ ?_
  · rw [fill_state, hdraws, steps_add, fill_state]
  · rw [fill_bytes, hdraws, drawnBytes_add, fill_bytes, ← drawnBytes_length draw q c,
      List.take_length_add_append]

end Fill

/-- Settles O42: the state, the bytes and the length of the loop. -/
theorem fillIsChunkedDraws : Obligations.FillIsChunkedDraws :=
  fun _ draw n c => ⟨fill_state draw n c, fill_bytes draw n c, fill_bytes_length draw n c⟩

/-- Settles O43: `a` bytes are `a / 8` whole words, after which the draws go on. -/
theorem fillSplitsAtMultiplesOfEight : Obligations.FillSplitsAtMultiplesOfEight := by
  intro E draw a b c ha
  obtain ⟨q, rfl⟩ := Nat.dvd_of_mod_eq_zero ha
  rw [fill_split, fill_whole_words]

/-! ### Jumps are draws (R170, R172, R175, R176, R177) -/

/-- Settles O20, by induction on the stride: each draw adds one GAMMA. -/
theorem jumpSm64IsIteratedDraw : Obligations.JumpSm64IsIteratedDraw := Sm.jump_eq_steps

/-- Settles O30: the polynomial of R175 acts on the pair as that many steps do. -/
theorem jumpX128IsIteratedDraw : Obligations.JumpX128IsIteratedDraw := Xo.jump_eq_steps

/-- Settles O38: the polynomial of R176 acts on the words relative to the pointer as that many steps
do, and the pointer counts the steps. -/
theorem jumpX1024IsIteratedDraw : Obligations.JumpX1024IsIteratedDraw := Xs.jump_eq_steps

theorem steps_comm {E : Type} (draw : E → E × Word) (j k : Nat) (c : E) :
    steps draw k (steps draw j c) = steps draw j (steps draw k c) := by
  rw [← steps_add, Nat.add_comm, steps_add]

/-- A jump that is draws commutes with draws. -/
theorem jump_commutes_with_steps {E : Type} {draw : E → E × Word} {jump : Nat → E → E}
    (hjump : ∀ J c, jump J c = steps draw J c) (J k : Nat) (c : E) :
    steps draw k (jump J c) = jump J (steps draw k c) := by
  rw [hjump, hjump, steps_comm]

/-- Settles O45: each engine's jump is draws, and draws commute with draws. -/
theorem jumpCommutesWithDraws : Obligations.JumpCommutesWithDraws := fun J k =>
  ⟨jump_commutes_with_steps (jump := fun J e => Sm.jump J e) Sm.jump_eq_steps J k,
    jump_commutes_with_steps (jump := fun J e => Xo.jump J e) Xo.jump_eq_steps J k,
    jump_commutes_with_steps (jump := fun J e => Xs.jump J e) Xs.jump_eq_steps J k⟩

/-! ### The commands (R163 to R165, R172 to R174, R204) -/

section Commands

variable {E : Type} {c : Option E} {put : E → State} {s : State} {i : Instr}

/-- A command that is an operation of the contract on the engine state `c` writes the state back and
answers, or answers NotSeeded. -/
theorem exec_of_contract {f : E → E × Response} (hexec : exec i s = .next (contract f c put s)) :
    (∀ e, c = some e → exec i s = .next ((put (f e).1).respond (f e).2)) ∧
    (c = none → exec i s = .next (s.raise .notSeeded)) := by
  constructor
  · rintro e rfl
    exact hexec
  · rintro rfl
    exact hexec

theorem exec_of_outFill {draw : E → E × Word} {n : Nat}
    (hexec : exec i s = .next (outFill draw n c put s)) :
    (∀ e, c = some e →
      exec i s = .next ((put (fill draw n e).1).respond (.filled (fill draw n e).2))) ∧
    (c = none → exec i s = .next (s.raise .notSeeded)) :=
  exec_of_contract (outFill_eq_contract draw c put s n ▸ hexec)

theorem exec_of_outJump {jump : E → E} (hexec : exec i s = .next (outJump jump c put s)) :
    (∀ e, c = some e → exec i s = .next ((put (jump e)).respond .done)) ∧
    (c = none → exec i s = .next (s.raise .notSeeded)) :=
  exec_of_contract (outJump_eq_contract jump c put s ▸ hexec)

end Commands

/-- Settles O18: FILL at the draw of SM64. -/
theorem fillSm64Bytes : Obligations.FillSm64Bytes :=
  fun len s => exec_of_outFill (exec_fillSm64 s len)

/-- Settles O28: FILL at the draw of X128. -/
theorem fillX128Bytes : Obligations.FillX128Bytes :=
  fun len s => exec_of_outFill (exec_fillX128 s len)

/-- Settles O36: FILL at the draw of X1024, whose pointer counts the draws. -/
theorem fillX1024Bytes : Obligations.FillX1024Bytes := by
  intro len s
  obtain ⟨hseeded, hunseeded⟩ := exec_of_outFill (exec_fillX1024 s len)
  have hpointer : ∀ e, (fill Xs.draw len.toNat e).1.p =
      e.p + BitVec.ofNat 4 ((len.toNat + 7) / 8) := fun e => by rw [fill_state, Xs.steps_pointer]
  exact ⟨fun e he => ⟨hseeded e he, hpointer e⟩, hunseeded⟩

/-- Settles O19: JUMP at the closed form of R172; the constant is evaluated. -/
theorem jumpSm64AddsConstant : Obligations.JumpSm64AddsConstant :=
  ⟨fun s => exec_of_outJump (exec_jumpSm64 s), rfl, by decide⟩

/-- Settles O29: JUMP at the polynomial method of R175, which is the iterated draw. -/
theorem jumpX128CommandIsDraws : Obligations.JumpX128CommandIsDraws := by
  refine ⟨rfl, fun s => ?_⟩
  have hexec : exec .jumpX128 s =
      .next (outJump (steps Xo.draw s.strides.x128) s.xo s.setXo s) := by
    rw [exec_jumpX128, funext (Xo.jump_eq_steps s.strides.x128)]
  exact exec_of_outJump hexec

/-- The default stride of X1024 is a multiple of 16 draws, so the pointer comes back (R174). -/
theorem pointer_after_default_stride (e : Xs) :
    (steps Xs.draw Config.defaultStrides.x1024 e).p = e.p := by
  have hstride : Config.defaultStrides.x1024 = 2 ^ 512 := rfl
  have hturns : 2 ^ 4 ∣ Config.defaultStrides.x1024 := by
    rw [hstride, Nat.pow_dvd_pow_iff_le_right (by decide)]
    decide
  have hzero : BitVec.ofNat 4 Config.defaultStrides.x1024 = 0#4 :=
    BitVec.eq_of_toNat_eq (Nat.mod_eq_zero_of_dvd hturns)
  rw [Xs.steps_pointer, hzero, BitVec.add_zero]

/-- Settles O37: JUMP at the polynomial method of R176, which is the iterated draw, and the pointer
counts the draws. -/
theorem jumpX1024CommandIsDraws : Obligations.JumpX1024CommandIsDraws := by
  refine ⟨rfl, fun s => ?_⟩
  have hexec : exec .jumpX1024 s =
      .next (outJump (steps Xs.draw s.strides.x1024) s.xs s.setXs s) := by
    rw [exec_jumpX1024, funext (Xs.jump_eq_steps s.strides.x1024)]
  obtain ⟨hseeded, hunseeded⟩ := exec_of_outJump hexec
  refine ⟨fun e he => ⟨hseeded e he, Xs.steps_pointer _ e, fun hdefault => ?_⟩, hunseeded⟩
  rw [hdefault, pointer_after_default_stride]

end Sys2Proof.Machine

/-! ## Errors, the entropy source and the idle block (60_exceptions.md) -/

namespace Sys2Proof.Machine

/-! ### What a step finds to do (R203, R213, R215) -/

/-- Settles O9: an Illegal frame is taken off the inbox, and its status is the whole effect. -/
theorem stepAnswersIllegalFrame : Obligations.StepAnswersIllegalFrame :=
  fun _ _ _ _ => step_of_illegal_frame

/-- Settles O11: with an empty inbox and no SEEDE executing there is nothing to fetch. -/
theorem idleBlockHoldsState : Obligations.IdleBlockHoldsState :=
  fun s hredraw hinbox => step_of_fetch s _ _ (s.fetch_idle hredraw hinbox)

/-- Settles O12: the SEEDE still executing is fetched before the inbox is looked at. -/
theorem stepGoesOnWithRedraw : Obligations.StepGoesOnWithRedraw :=
  fun s => ⟨fun hredraw => step_of_fetch s _ _ (s.fetch_x128 hredraw),
    fun hredraw => step_of_fetch s _ _ (s.fetch_x1024 hredraw)⟩

/-! ### Commands that test the valid bit (R204, R205) -/

/-- What a command that tests the valid bit answers: OK when the bit is 1, NotSeeded with no other
effect when it is 0. -/
inductive AnsweredByValid (s : State) : Bool → State → Prop where
  | ok {t : State} (r : Response) (hout : t.outbox = s.outbox ++ [r]) (hok : r.status = .ok) :
      AnsweredByValid s true t
  | notSeeded : AnsweredByValid s false (s.raise .notSeeded)

theorem contract_answeredByValid {E : Type} {f : E → E × Response} (c : Option E) {put : E → State}
    {s : State} (hput : ∀ d, (put d).outbox = s.outbox) (hok : ∀ d, (f d).2.status = .ok) :
    AnsweredByValid s c.isSome (contract f c put s) := by
  cases c with
  | none => exact .notSeeded
  | some d => exact .ok (f d).2 (congrArg (· ++ _) (hput _)) (hok d)

/-- NEXT64, NEXT32, FILL and JUMP are operations of the contract on the engine they name. -/
theorem exec_answeredByValid {i : Instr} (hi : i.needsSeeded = true) (s : State) :
    ∃ t, exec i s = .next t ∧ AnsweredByValid s (s.valid i.engine) t := by
  cases i with
  | seedbSm64 | seediSm64 | seedeSm64 => cases hi
  | seedbX128 | seediX128 | seedeX128 | seeddX128 => cases hi
  | seedbX1024 | seediX1024 | seedeX1024 => cases hi
  | next64Sm64 | next32Sm64 | fillSm64 len | jumpSm64 =>
    simp only [exec_next64Sm64, exec_next32Sm64, exec_fillSm64, exec_jumpSm64,
      outNext64_eq_contract, outNext32_eq_contract, outFill_eq_contract, outJump_eq_contract]
    exact ⟨_, rfl, contract_answeredByValid s.sm s.setSm_outbox fun _ => rfl⟩
  | next64X128 | next32X128 | fillX128 len | jumpX128 =>
    simp only [exec_next64X128, exec_next32X128, exec_fillX128, exec_jumpX128,
      outNext64_eq_contract, outNext32_eq_contract, outFill_eq_contract, outJump_eq_contract]
    exact ⟨_, rfl, contract_answeredByValid s.xo s.setXo_outbox fun _ => rfl⟩
  | next64X1024 | next32X1024 | fillX1024 len | jumpX1024 =>
    simp only [exec_next64X1024, exec_next32X1024, exec_fillX1024, exec_jumpX1024,
      outNext64_eq_contract, outNext32_eq_contract, outFill_eq_contract, outJump_eq_contract]
    exact ⟨_, rfl, contract_answeredByValid s.xs s.setXs_outbox fun _ => rfl⟩

/-- Settles O52: with the valid bit at 1 the response is OK. -/
theorem seededEngineNeverFails : Obligations.SeededEngineNeverFails := by
  intro i s hi hvalid
  obtain ⟨t, ht, hanswer⟩ := exec_answeredByValid hi s
  rw [hvalid] at hanswer
  cases hanswer with
  | ok r hout hok => exact ⟨t, r, ht, hout, hok⟩

/-- Settles O53: with the valid bit at 0 raising NotSeeded is the whole effect. -/
theorem unseededEngineAnswersNotSeeded : Obligations.UnseededEngineAnswersNotSeeded := by
  intro i s hi hvalid
  obtain ⟨t, ht, hanswer⟩ := exec_answeredByValid hi s
  rw [hvalid] at hanswer
  cases hanswer with
  | notSeeded => exact ht

/-! ### InvalidSeed (R201) -/

/-- A response that `t` shows after those of `s` is the last one sent. -/
theorem sent_unique {s t : State} {r r' : Response} (h : t.outbox = s.outbox ++ [r])
    (h' : t.outbox = s.outbox ++ [r']) : r = r' := by
  simpa using h.symm.trans h'

/-- Between `s` and `t` no InvalidSeed is sent as the one response. -/
def SendsNoInvalidSeed (s t : State) : Prop :=
  ∀ r, t.outbox = s.outbox ++ [r] → r.status ≠ .invalidSeed

section InvalidSeed

variable {s t : State}

theorem SendsNoInvalidSeed.of_sent {r : Response} (hout : t.outbox = s.outbox ++ [r])
    (hr : r.status ≠ .invalidSeed) : SendsNoInvalidSeed s t :=
  fun _ h => sent_unique hout h ▸ hr

theorem SendsNoInvalidSeed.of_silent (hout : t.outbox = s.outbox) : SendsNoInvalidSeed s t :=
  fun _ h => by simp [hout] at h

theorem SendsNoInvalidSeed.of_entDraw {n : Nat} (h : SendsNoInvalidSeed (s.entDraw n).2 t) :
    SendsNoInvalidSeed s t :=
  fun r hout => h r (by rw [s.entDraw_outbox n, hout])

theorem AnsweredByValid.sendsNoInvalidSeed {v : Bool} (h : AnsweredByValid s v t) :
    SendsNoInvalidSeed s t := by
  cases h with
  | ok r hout hok => exact .of_sent hout (by simp [hok])
  | notSeeded => exact .of_sent rfl nofun

theorem State.seedSmFrom_sendsNoInvalidSeed (s : State) (a : Option (List Byte)) :
    SendsNoInvalidSeed s (s.seedSmFrom a) := by
  cases a with
  | none => exact .of_sent rfl nofun
  | some b => exact .of_sent rfl nofun

/-- An all-zero draw is rejected without a response. -/
theorem State.seedXoFrom_sendsNoInvalidSeed (s : State) (a : Option (List Byte)) :
    SendsNoInvalidSeed s (s.seedXoFrom a) := by
  rcases s.seedXoFrom_cases a with ⟨-, h⟩ | ⟨b, -, -, h⟩ | ⟨b, -, -, h⟩ <;> rw [h]
  · exact .of_sent rfl nofun
  · exact .of_silent rfl
  · exact .of_sent rfl nofun

/-- An all-zero draw is rejected without a response. -/
theorem State.seedXsFrom_sendsNoInvalidSeed (s : State) (a : Option (List Byte)) :
    SendsNoInvalidSeed s (s.seedXsFrom a) := by
  rcases s.seedXsFrom_cases a with ⟨-, h⟩ | ⟨b, -, -, h⟩ | ⟨b, -, -, h⟩ <;> rw [h]
  · exact .of_sent rfl nofun
  · exact .of_silent rfl
  · exact .of_sent rfl nofun

/-- A command that is none of the two SEEDB with an all-zero seed sends no InvalidSeed. -/
theorem exec_sendsNoInvalidSeed (i : Instr) (s : State) (hX128 : i ≠ .seedbX128 0 0)
    (hX1024 : i ≠ .seedbX1024 (words16 fun _ => 0)) :
    ∃ t, exec i s = .next t ∧ SendsNoInvalidSeed s t := by
  by_cases hi : i.needsSeeded = true
  · obtain ⟨t, ht, hanswer⟩ := exec_answeredByValid hi s
    exact ⟨t, ht, hanswer.sendsNoInvalidSeed⟩
  cases i with
  | seedbSm64 w => exact ⟨_, exec_seedbSm64 s w, .of_sent rfl nofun⟩
  | seediSm64 v => exact ⟨_, exec_seediSm64 s v, .of_sent rfl nofun⟩
  | seedeSm64 =>
    exact ⟨_, exec_seedeSm64_eq_seedSmFrom s, (State.seedSmFrom_sendsNoInvalidSeed _ _).of_entDraw⟩
  | seedbX128 w0 w1 =>
    have hseed : ¬(w0 = 0 ∧ w1 = 0) := by
      rintro ⟨rfl, rfl⟩
      exact hX128 rfl
    exact ⟨_, (seedX128FromBytes.2 w0 w1 s).1 hseed, .of_sent rfl nofun⟩
  | seediX128 v => exact ⟨_, seedX128FromInteger.2 v s, .of_sent rfl nofun⟩
  | seedeX128 => exact ⟨_, exec_seedeX128 s, (State.seedXoFrom_sendsNoInvalidSeed _ _).of_entDraw⟩
  | seeddX128 => exact ⟨_, exec_seeddX128 s, .of_sent rfl nofun⟩
  | seedbX1024 ws =>
    have hseed : ws ≠ words16 fun _ => 0 := fun h => hX1024 (congrArg _ h)
    exact ⟨_, (seedX1024FromBytes.2 ws s).1 hseed, .of_sent rfl nofun⟩
  | seediX1024 v => exact ⟨_, seedX1024FromInteger.2 v s, .of_sent rfl nofun⟩
  | seedeX1024 =>
    exact ⟨_, exec_seedeX1024 s, (State.seedXsFrom_sendsNoInvalidSeed _ _).of_entDraw⟩
  | next64Sm64 | next32Sm64 | fillSm64 | jumpSm64 | next64X128 | next32X128 | fillX128 | jumpX128
  | next64X1024 | next32X1024 | fillX1024 | jumpX1024 =>
    exact absurd rfl hi

end InvalidSeed

/-- Settles O51: the two SEEDB raise InvalidSeed on a zero seed, and no other command sends it. -/
theorem invalidSeedOnlyForZeroSeed : Obligations.InvalidSeedOnlyForZeroSeed := by
  intro i s t r h hout
  constructor
  · intro hr
    by_contra hseed
    obtain ⟨hX128, hX1024⟩ := not_or.mp hseed
    obtain ⟨u, hu, hother⟩ := exec_sendsNoInvalidSeed i s hX128 hX1024
    cases hu.symm.trans h
    exact hother r hout hr
  · rintro (rfl | rfl)
    · cases ((seedX128FromBytes.2 0 0 s).2 ⟨rfl, rfl⟩).symm.trans h
      exact congrArg Response.status (sent_unique hout rfl)
    · cases ((seedX1024FromBytes.2 _ s).2 rfl).symm.trans h
      exact congrArg Response.status (sent_unique hout rfl)

/-! ### The answers of the entropy source (R212) -/

theorem EntAnswer.take_length {n : Nat} (hn : n ≤ 128) {a : EntAnswer} {b : List Byte}
    (h : EntAnswer.take n a = some b) : b.length = n := by
  cases a with
  | fail => cases h
  | ok bytes =>
    cases h
    simp [hn]

/-- Bytes filled up with zero bytes to an answer of the source. -/
def paddedAnswer (b : List Byte) (hb : b.length ≤ 128) : EntAnswer :=
  .ok ⟨(b ++ List.replicate (128 - b.length) 0).toArray, by simp [hb]⟩

theorem take_paddedAnswer (b : List Byte) (hb : b.length ≤ 128) :
    EntAnswer.take b.length (paddedAnswer b hb) = some b :=
  congrArg some List.take_left

theorem State.entDraw_answer (n : Nat) (s : State) : ∃ a, (s.entDraw n).1 = EntAnswer.take n a := by
  obtain ⟨a, _, _, hdraw, -⟩ := s.entDraw_eq n
  exact ⟨a, congrArg Prod.fst hdraw⟩

theorem State.entDraw_of_none_lined {s : State} (h : s.entropy = []) (n : Nat) :
    s.entDraw n = (EntAnswer.take n (Config.entropyAnswer s.entropyIndex),
      { s with entropyIndex := s.entropyIndex + 1 }) := by
  unfold State.entDraw
  rw [h]

/-- Settles O54: a draw is the first bytes of one answer, and any bytes are the first of some. -/
theorem entropyDrawAnswers : Obligations.EntropyDrawAnswers := by
  intro n s hn
  refine ⟨fun b hb => ?_, fun b hb => ?_, rfl, fun a rest h => s.entDraw_of_lined h n,
    fun h => by rw [State.entDraw_of_none_lined h]⟩
  · obtain ⟨a, ha⟩ := s.entDraw_answer n
    exact EntAnswer.take_length hn (ha.symm.trans hb)
  · subst hb
    exact ⟨paddedAnswer b hn, take_paddedAnswer b hn⟩

/-! ### A frame that fails or goes on executing (R206, R213) -/

theorem State.engines_eq_iff (s t : State) :
    t.engines = s.engines ↔ t.sm = s.sm ∧ t.xo = s.xo ∧ t.xs = s.xs := by
  refine funext_iff.trans ⟨fun h => ?_, fun ⟨hsm, hxo, hxs⟩ e => ?_⟩
  · exact ⟨(t.sameEngine_iff s .sm64).mpr (h _), (t.sameEngine_iff s .x128).mpr (h _),
      (t.sameEngine_iff s .x1024).mpr (h _)⟩
  · rw [← State.sameEngine_iff]
    cases e with
    | sm64 => exact hsm
    | x128 => exact hxo
    | x1024 => exact hxs

section Failed

variable {i : Instr} {s t : State} {r : Response}

/-- A command that answers with an error writes no engine (R206). -/
theorem Effect.engines_of_failed (h : Effect i s t) (hout : t.outbox = s.outbox ++ [r])
    (hr : r.status ≠ .ok) : t.engines = s.engines := by
  cases h with
  | failed _ _ hengines _ | redraws hengines _ => exact hengines
  | seeded _ _ _ _ hdone => exact absurd (congrArg Response.status (sent_unique hout hdone)) hr
  | advanced _ _ r' _ _ _ _ hsent hok _ => exact absurd (sent_unique hout hsent ▸ hok) hr

/-- A command that sends no response writes no engine. -/
theorem Effect.engines_of_silent (h : Effect i s t) (hout : t.outbox = s.outbox) :
    t.engines = s.engines := by
  cases h with
  | failed _ _ hengines _ | redraws hengines _ => exact hengines
  | seeded _ _ _ _ hsent | advanced _ _ _ _ _ _ _ hsent _ _ => simp [hout] at hsent

/-- A step that answers with an error writes no engine, the frame Illegal or its command failing. -/
theorem StepEffect.engines_of_failed (h : StepEffect s t) (hout : t.outbox = s.outbox ++ [r])
    (hr : r.status ≠ .ok) : t.engines = s.engines := by
  cases h with
  | idle hengines _ | illegal hengines _ => exact hengines
  | reset _ _ _ hsilent => simp [hsilent] at hout
  | ran i _ heffect => exact heffect.engines_of_failed hout hr

/-- A SEEDE.X128 that goes on executing after its draw has sent nothing. -/
theorem State.seedXoFrom_silent (s : State) (a : Option (List Byte))
    (hredraw : (s.seedXoFrom a).redraw.isSome = true) : (s.seedXoFrom a).outbox = s.outbox := by
  rcases s.seedXoFrom_cases a with ⟨-, h⟩ | ⟨b, -, -, h⟩ | ⟨b, -, -, h⟩ <;> rw [h] at hredraw ⊢
  · cases hredraw
  · rfl
  · cases hredraw

/-- A SEEDE.X1024 that goes on executing after its draw has sent nothing. -/
theorem State.seedXsFrom_silent (s : State) (a : Option (List Byte))
    (hredraw : (s.seedXsFrom a).redraw.isSome = true) : (s.seedXsFrom a).outbox = s.outbox := by
  rcases s.seedXsFrom_cases a with ⟨-, h⟩ | ⟨b, -, -, h⟩ | ⟨b, -, -, h⟩ <;> rw [h] at hredraw ⊢
  · cases hredraw
  · rfl
  · cases hredraw

/-- The converse of `exec_redraws`: a command after which a SEEDE is executing is that SEEDE, which
has sent nothing, when no other one was executing before. -/
theorem exec_silent_of_redraw (h : exec i s = .next t) (hredraw : t.redraw.isSome = true)
    (hi : s.redraw = none ∨ i = .seedeX128 ∨ i = .seedeX1024) : t.outbox = s.outbox := by
  by_cases hX128 : i = .seedeX128
  · subst hX128
    cases (exec_seedeX128 s).symm.trans h
    exact (State.seedXoFrom_silent _ _ hredraw).trans (s.entDraw_outbox 16)
  by_cases hX1024 : i = .seedeX1024
  · subst hX1024
    cases (exec_seedeX1024 s).symm.trans h
    exact (State.seedXsFrom_silent _ _ hredraw).trans (s.entDraw_outbox 128)
  obtain ⟨u, hu, -, hkept, -⟩ := exec_answered i s hX128 hX1024
  cases hu.symm.trans h
  have hidle : s.redraw = none := hi.resolve_right (by simp [hX128, hX1024])
  simp [hkept, hidle] at hredraw

@[simp] theorem State.fetch_redraw (s : State) : s.fetch.2.redraw = s.redraw := by
  unfold State.fetch
  split
  · rfl
  · rfl
  · split <;> rfl

theorem State.Runs.idle_or_seede (h : s.Runs i) :
    s.redraw = none ∨ i = .seedeX128 ∨ i = .seedeX1024 := by
  rcases h with ⟨hidle, -⟩ | ⟨-, hi⟩ | ⟨-, hi⟩
  · exact .inl hidle
  · exact .inr (.inl hi)
  · exact .inr (.inr hi)

/-- A step after which a SEEDE is still executing writes no engine: it is no reset, and a command it
runs has sent nothing. -/
theorem step_engines_of_redraw (h : step s = .next t) (hredraw : t.redraw.isSome = true) :
    t.engines = s.engines := by
  rw [step_of_fetch s s.fetch.2 s.fetch.1 rfl] at h
  rcases s.fetch_cases with hw | ⟨hw, hidle, -⟩ | hw | ⟨i, hw, hruns⟩ <;> rw [hw] at h
  · cases h
    exact s.engines_fetch
  · cases h
    simp [hidle] at hredraw
  · cases h
    exact s.engines_fetch
  · have hsilent := exec_silent_of_redraw h hredraw (s.fetch_redraw ▸ hruns.idle_or_seede)
    exact ((effect_of_exec h).engines_of_silent hsilent).trans s.engines_fetch

end Failed

/-- Settles O48: a redraw has sent nothing yet, and a command that writes an engine answers OK. -/
theorem failedFrameChangesNoEngine : Obligations.FailedFrameChangesNoEngine := by
  intro s t h hfails
  rw [← State.engines_eq_iff]
  rcases hfails with hredraw | ⟨r, hout, hr⟩
  · exact step_engines_of_redraw h hredraw
  · exact (stepEffect_of_step h).engines_of_failed hout hr

end Sys2Proof.Machine

/-! ## The reset event and the runs from reset (70_reset_and_hazards.md) -/

namespace Sys2Proof.Machine

/-- Settles O10: the reset event is what the step fetches, and it clears the three engines. -/
theorem stepTakesReset : Obligations.StepTakesReset :=
  fun s rest hredraw hinbox =>
    ⟨_, step_of_fetch s _ _ (s.fetch_reset rest hredraw hinbox), rfl, rfl, rfl, rfl⟩

/-- A run starts with no engine seeded and nothing sent, whatever is lined up beside the block (R30). -/
theorem start_inv (strides : Strides) (inputs : List HostInput) (answers : List EntAnswer) :
    State.Inv { State.reset with strides := strides, inbox := inputs, entropy := answers } :=
  ⟨resetMeetsInvariant.xo, resetMeetsInvariant.xs, resetMeetsInvariant.outbox⟩

/-- Settles O60, by induction on the run: its start meets the invariant and every step keeps it. -/
theorem reachableStatesMeetInvariant : Obligations.ReachableStatesMeetInvariant := by
  intro s hs
  induction hs with
  | start strides inputs answers => exact start_inv strides inputs answers
  | next _ hstep ih => exact stepKeepsInvariant _ _ ih hstep

/-- A run that O60 speaks of: one SEEDB frame sent to the block after reset leaves X128 seeded. -/
theorem reachable_seeded_x128 :
    Reachable { State.reset with xo := some ⟨0, 1⟩, outbox := [.done] } :=
  .next (.start Config.defaultStrides [.frame (encode (.seedbX128 0 1))] [])
    (stepRunsDecodedCommand _ _ [] (.seedbX128 0 1) rfl rfl (decodeEncodeRoundTrip _))

end Sys2Proof.Machine
